-- ==== Sys2Proof/Word.lean ====
section
/-! DEFINITION. The word types of the bit_buffer core: a byte of the store, the 64-bit fields of the command port, the
32-bit command and status words, and the 7-bit length field. -/

namespace Sys2Proof

/-- A byte of the backing store (10_state.md R21). Bit 7 is its most significant bit (00_scope.md R13). -/
abbrev Byte := BitVec 8

/-- A 64-bit field of the port: OPA, OPB, RES, NEXT (30_encoding.md R60), and the write cursor (10_state.md R23). -/
abbrev Word := BitVec 64

/-- The command word `req_cmd` (30_encoding.md R62). -/
abbrev CmdWord := BitVec 32

/-- The status word `rsp_status` (30_encoding.md R67). -/
abbrev StatusWord := BitVec 32

/-- The LEN field of a command word, 0 to 127 (30_encoding.md R62). -/
abbrev LenField := BitVec 7

end Sys2Proof
end

