-- ==== Sys2Proof/Syntax.lean ====
section
/-! DEFINITION. The syntax of the command set: a request on the port, the nine commands, the reasons a command word is
illegal, and the assembler's lines. -/

namespace Sys2Proof

/-- One request: the command word and the two operand words (30_encoding.md R60, R62, R63). A decoder always takes all
three (R71). -/
structure Request where
  cmd : CmdWord
  opa : Word
  opb : Word
deriving DecidableEq, Repr

/-- The nine commands of spec/opcode_table.json (30_encoding.md R65), each with the operands it uses, at the widths the
port gives them (R63, R64). An operand a command ignores is no part of the command (R63, log entry 12). -/
inductive Instr where
  /-- `NEW size_bits` (40_backing_store.md R83). -/
  | new (size : Word)
  /-- `RESIZE n_bytes` (40_backing_store.md R84). -/
  | resize (bytes : Word)
  /-- `RAWBYTE index` (40_backing_store.md R85). -/
  | rawbyte (index : Word)
  /-- `CAPBYTES` (40_backing_store.md R86). -/
  | capbytes
  /-- `INSERT value, start, len` (42_write_path.md R123). -/
  | insert (value start : Word) (len : LenField)
  /-- `APPEND value, len` (42_write_path.md R124). -/
  | append (value : Word) (len : LenField)
  /-- `GET start, len` (43_read_path.md R142). -/
  | get (start : Word) (len : LenField)
  /-- `GETC cursor, len` (43_read_path.md R143). -/
  | getc (cursor : Word) (len : LenField)
  /-- `SIZEBITS` (43_read_path.md R144). -/
  | sizebits
deriving DecidableEq, Repr

/-- The rows of the opcode map (30_encoding.md R65), in the order of their numbers. -/
inductive Opcode where
  | new | resize | rawbyte | capbytes | insert | append | get | getc | sizebits
deriving DecidableEq, Repr

/-- Why a command word is illegal: the three conditions of 30_encoding.md R66, in its order. -/
inductive Illegal where
  /-- `OP` is 0x0 or one of 0xA to 0xF. -/
  | unassignedOpcode
  /-- `RSVD` is not zero. -/
  | reservedBits
  /-- `LEN` is not zero on a command that has no length. -/
  | lengthOnZ
deriving DecidableEq, Repr

/-- What a request decodes to: one of the nine commands, or illegal (30_encoding.md R73). -/
inductive Decoded where
  | command (i : Instr)
  | illegal (why : Illegal)
deriving DecidableEq, Repr

/-- A line of the assembler, its operands unsigned numbers of any size (30_encoding.md R69). `NEW` may stand without its
operand, the one pseudo-instruction (R70). How a number is spelled (decimal, hexadecimal, binary) is not part of it
(log entry 15). -/
inductive Line where
  | new (size : Option Nat)
  | resize (bytes : Nat)
  | rawbyte (index : Nat)
  | capbytes
  | insert (value start len : Nat)
  | append (value len : Nat)
  | get (start len : Nat)
  | getc (cursor len : Nat)
  | sizebits
deriving DecidableEq, Repr

end Sys2Proof
end

