-- ==== Sys2Proof/WellFormed.lean ====
section
/-! DEFINITION. Well-formedness: which lines the assembler accepts (30_encoding.md R69). A term of `Instr` needs no check
of its own: its fields have the widths of the encoding, so every one is encodable. -/

namespace Sys2Proof

/-- An operand fits its 64-bit operand word (30_encoding.md R69). -/
def operandFits (n : Nat) : Bool := decide (n < 2 ^ 64)

/-- A length fits the 7-bit LEN field: 0 to 127, legal lengths or not (30_encoding.md R69). -/
def lenFits (n : Nat) : Bool := decide (n < 128)

/-- The lines an assembler does not refuse (30_encoding.md R69). -/
def Line.wellFormed : Line → Bool
  | .new size => operandFits (size.getD 0)
  | .resize bytes => operandFits bytes
  | .rawbyte index => operandFits index
  | .capbytes => true
  | .insert value start len => operandFits value && operandFits start && lenFits len
  | .append value len => operandFits value && lenFits len
  | .get start len => operandFits start && lenFits len
  | .getc cursor len => operandFits cursor && lenFits len
  | .sizebits => true

end Sys2Proof
end

