-- ==== Sys2Proof/Decode.lean ====
section
/-! DEFINITION. The decoder (total, refusing by name), the encoder, and the assembler, all from the encoding tables of
30_encoding.md (R62, R65, R66, R69). -/

namespace Sys2Proof

/-! ## The opcode map (30_encoding.md R65) -/

/-- The value of the OP field, bits 3:0. -/
def Opcode.number : Opcode → BitVec 4
  | .new => 0x1#4
  | .resize => 0x2#4
  | .rawbyte => 0x3#4
  | .capbytes => 0x4#4
  | .insert => 0x5#4
  | .append => 0x6#4
  | .get => 0x7#4
  | .getc => 0x8#4
  | .sizebits => 0x9#4

/-- The `match` column of the table. -/
def Opcode.matchWord : Opcode → CmdWord
  | .new => 0x00000001#32
  | .resize => 0x00000002#32
  | .rawbyte => 0x00000003#32
  | .capbytes => 0x00000004#32
  | .insert => 0x00000005#32
  | .append => 0x00000006#32
  | .get => 0x00000007#32
  | .getc => 0x00000008#32
  | .sizebits => 0x00000009#32

/-- The `mask` column of the table: a Z command fixes every bit, a field command leaves LEN free. -/
def Opcode.maskWord : Opcode → CmdWord
  | .new => 0xFFFFFFFF#32
  | .resize => 0xFFFFFFFF#32
  | .rawbyte => 0xFFFFFFFF#32
  | .capbytes => 0xFFFFFFFF#32
  | .insert => 0xFFFFF80F#32
  | .append => 0xFFFFF80F#32
  | .get => 0xFFFFF80F#32
  | .getc => 0xFFFFF80F#32
  | .sizebits => 0xFFFFFFFF#32

/-- The rows of the table, in its order. -/
def Opcode.all : List Opcode :=
  [.new, .resize, .rawbyte, .capbytes, .insert, .append, .get, .getc, .sizebits]

/-- A word matches a row when it agrees with it under the row's mask (30_encoding.md R73). -/
def Opcode.matches (o : Opcode) (w : CmdWord) : Bool := w &&& o.maskWord == o.matchWord

/-! ## Decoding -/

/-- `OP = req_cmd[3:0]` (30_encoding.md R62). -/
def cmdOp (w : CmdWord) : BitVec 4 := w.extractLsb' 0 4

/-- `LEN = req_cmd[10:4]` (30_encoding.md R62, R64). -/
def cmdLen (w : CmdWord) : LenField := w.extractLsb' 4 7

/-- `RSVD = req_cmd[31:11]` (30_encoding.md R62). -/
def cmdRsvd (w : CmdWord) : BitVec 21 := w.extractLsb' 11 21

/-- The row of the table a command word matches, if any (30_encoding.md R73). -/
def decodeOpcode (w : CmdWord) : Option Opcode := Opcode.all.find? (fun o => o.matches w)

/-- The first condition of 30_encoding.md R66 that holds of a word no row matches. -/
def illegalReason (w : CmdWord) : Illegal :=
  if cmdOp w = 0#4 ∨ 0xA#4 ≤ cmdOp w then .unassignedOpcode
  else if cmdRsvd w ≠ 0#21 then .reservedBits
  else .lengthOnZ

/-- The command a row stands for, with its operands taken from the request (30_encoding.md R63, R64, R65). -/
def Opcode.command (o : Opcode) (r : Request) : Instr :=
  match o with
  | .new => .new r.opb
  | .resize => .resize r.opb
  | .rawbyte => .rawbyte r.opb
  | .capbytes => .capbytes
  | .insert => .insert r.opa r.opb (cmdLen r.cmd)
  | .append => .append r.opa (cmdLen r.cmd)
  | .get => .get r.opb (cmdLen r.cmd)
  | .getc => .getc r.opb (cmdLen r.cmd)
  | .sizebits => .sizebits

/-- The decoder: total on every command word and operands (30_encoding.md R73). -/
def decode (r : Request) : Decoded :=
  match decodeOpcode r.cmd with
  | some o => .command (o.command r)
  | none => .illegal (illegalReason r.cmd)

/-! ## Encoding -/

/-- A command word laid out as `RSVD LEN OP` with RSVD zero (30_encoding.md R62). -/
def cmdWord (o : Opcode) (len : LenField) : CmdWord := 0#21 ++ len ++ o.number

/-- The row of the table a command belongs to. -/
def Instr.opcode : Instr → Opcode
  | .new _ => .new
  | .resize _ => .resize
  | .rawbyte _ => .rawbyte
  | .capbytes => .capbytes
  | .insert _ _ _ => .insert
  | .append _ _ => .append
  | .get _ _ => .get
  | .getc _ _ => .getc
  | .sizebits => .sizebits

/-- The encoder: the command word and operand words of a command, 0 in an ignored operand (30_encoding.md R69). -/
def encode : Instr → Request
  | .new size => { cmd := cmdWord .new 0#7, opa := 0#64, opb := size }
  | .resize bytes => { cmd := cmdWord .resize 0#7, opa := 0#64, opb := bytes }
  | .rawbyte index => { cmd := cmdWord .rawbyte 0#7, opa := 0#64, opb := index }
  | .capbytes => { cmd := cmdWord .capbytes 0#7, opa := 0#64, opb := 0#64 }
  | .insert value start len => { cmd := cmdWord .insert len, opa := value, opb := start }
  | .append value len => { cmd := cmdWord .append len, opa := value, opb := 0#64 }
  | .get start len => { cmd := cmdWord .get len, opa := 0#64, opb := start }
  | .getc cursor len => { cmd := cmdWord .getc len, opa := 0#64, opb := cursor }
  | .sizebits => { cmd := cmdWord .sizebits 0#7, opa := 0#64, opb := 0#64 }

/-! ## Assembling -/

/-- The command a line names, its numbers taken at the widths of the encoding; `NEW` alone is `NEW 0`
(30_encoding.md R69, R70). -/
def Line.command : Line → Instr
  | .new size => .new (BitVec.ofNat 64 (size.getD 0))
  | .resize bytes => .resize (BitVec.ofNat 64 bytes)
  | .rawbyte index => .rawbyte (BitVec.ofNat 64 index)
  | .capbytes => .capbytes
  | .insert value start len => .insert (BitVec.ofNat 64 value) (BitVec.ofNat 64 start) (BitVec.ofNat 7 len)
  | .append value len => .append (BitVec.ofNat 64 value) (BitVec.ofNat 7 len)
  | .get start len => .get (BitVec.ofNat 64 start) (BitVec.ofNat 7 len)
  | .getc cursor len => .getc (BitVec.ofNat 64 cursor) (BitVec.ofNat 7 len)
  | .sizebits => .sizebits

/-- The assembler: the request of a line, or none where it refuses the line (30_encoding.md R69). -/
def assemble (l : Line) : Option Request := if l.wellFormed then some (encode l.command) else none

/-! ## The opcode table's numbering of bits -/

/-- The request whose bits are `w`: the command word in bits 31:0, OPA in bits 95:32, OPB in bits 159:96; every bit at or
above `nbits` is 0. DESIGN CHOICE (safe, log entry 11): on the port the three are separate signals, and the spec orders
them only by naming `req_cmd`, `req_opa`, `req_opb` in this order (30_encoding.md R60). -/
def requestOfBits (nbits w : Nat) : Request :=
  let b := w % 2 ^ nbits
  { cmd := BitVec.ofNat 32 b
    opa := BitVec.ofNat 64 (b / 2 ^ 32)
    opb := BitVec.ofNat 64 (b / 2 ^ 96) }

/-- What the decoder reads from a request whose bits are `w`, numbered as spec/opcode_table.json numbers them. -/
def decodeTableWord (nbits w : Nat) : Option Instr :=
  match decode (requestOfBits nbits w) with
  | .command i => some i
  | .illegal _ => none

end Sys2Proof
end

