-- ==== Sys2Proof/Machine/Arith.lean ====
section
/-! DEFINITION. The bit-extraction and byte-boundary arithmetic unit (41_bit_arithmetic.md): stateless functions on exact
naturals (R110), used by the write and read paths and reachable by no command (R100). -/

namespace Sys2Proof.Machine

/-- The byte that holds bit offset `p` (41_bit_arithmetic.md R101). -/
def byteIndex (p : Nat) : Nat := p / 8

/-- The offset of bit `p` from its byte's most significant bit (R102). -/
def bitOffsetInByte (p : Nat) : Nat := p % 8

/-- The value bit number of bit offset `p` within its byte (20_memory.md R41). -/
def bitInByte (p : Nat) : Nat := 7 - bitOffsetInByte p

/-- How many bits from offset `p` to the end of its byte, inclusive (R103). -/
def bitsRemainingInByte (p : Nat) : Nat := 8 - bitOffsetInByte p

/-- The fewest bytes that hold `n` bits (R104). -/
def ceilBytes (n : Nat) : Nat := (n + 7) / 8

/-- `q` one bits (R105). -/
def mask (q : Nat) : Nat := 2 ^ q - 1

/-- The field of `quantity` bits at value bit `start`, left in place (R106). Called only within the rule's arguments
(log entry 13). -/
def extractBitsInPlace (v start quantity : Nat) : Nat := v &&& (mask quantity <<< start)

/-- The same field moved down to value bit 0 (R107). -/
def extractBitsShifted (v start quantity : Nat) : Nat := (v >>> start) &&& mask quantity

/-- The number of the highest one bit; `none` is the sentinel for zero (R108, log entry 13). -/
def mostSignificantSetBit (v : Nat) : Option Nat := if v = 0 then none else some (Nat.log2 v)

/-- The fit check: `v` is representable in `len` bits (R109). -/
def fits (v len : Nat) : Bool :=
  match mostSignificantSetBit v with
  | none => true
  | some k => decide (k < len)

/-- The bytes a field of length `len ≥ 1` at offset `start` touches (42_write_path.md R121, 70_reset_and_hazards.md
R201). -/
def bytesTouched (start len : Nat) : Nat := byteIndex (start + len - 1) - byteIndex start + 1

end Sys2Proof.Machine
end

