-- ==== Sys2Proof/Config.lean ====
section
/-! DEFINITION. The parameters of the block (00_scope.md R9): what one implementation fixes and no command changes. -/

namespace Sys2Proof

/-- The legal values of the parameter `W` (00_scope.md R9, 92_eei_decisions.md D8). -/
inductive ValueWidth where
  | w8 | w16 | w32 | w64
deriving DecidableEq, Repr

/-- `W` as a number of bits: the largest legal LEN. -/
def ValueWidth.bits : ValueWidth → Nat
  | .w8 => 8
  | .w16 => 16
  | .w32 => 32
  | .w64 => 64

/-- The parameters `W` (VALUE_WIDTH) and `MAX_BYTES` (00_scope.md R9). They stand in `State`, as plain data no step
writes, so that a statement over all states is a statement over all parameters. -/
structure Config where
  valueWidth : ValueWidth
  maxBytes : Nat
deriving DecidableEq, Repr

/-- The legal values of `MAX_BYTES`: `1 ≤ MAX_BYTES ≤ 2^60` (00_scope.md R9). Every `ValueWidth` is legal. -/
def Config.legal (c : Config) : Bool :=
  decide (1 ≤ c.maxBytes) && decide (c.maxBytes ≤ 2 ^ 60)

/-- `W = 64` is the spec's default (R9). DESIGN CHOICE (unsafe, log entry 2): the spec leaves the default of `MAX_BYTES`
open; `2^60` is its largest legal value and the one 95_test_vectors.md runs with. -/
def Config.standard : Config := { valueWidth := .w64, maxBytes := 2 ^ 60 }

end Sys2Proof
end

