-- ==== Sys2Proof/Machine/State.lean ====
section
/-! DEFINITION. The state of the machine as plain data: the backing store, the write cursor, the fault latch, the
response channel, the reset input, the parameters, what the host does next and the responses it has taken; the reasons a
step can stop; and the state after reset. -/

namespace Sys2Proof.Machine

/-- The recoverable errors (60_exceptions.md R161, R162). -/
inductive RecoverableError where
  | fieldTooNarrow | outOfRange | bufferTooSmall
deriving DecidableEq, Repr

/-- The fatal errors (60_exceptions.md R161, R163). -/
inductive FatalError where
  | resourceExhausted | illegalCommand | badLength | rawIndexRange
deriving DecidableEq, Repr

/-- What a command can raise: the two classes of errors (60_exceptions.md R161). -/
inductive CommandError where
  | recoverable (e : RecoverableError)
  | fatal (e : FatalError)
deriving DecidableEq, Repr

/-- The status codes by name; no other is ever produced (60_exceptions.md R161). -/
inductive StatusCode where
  | ok
  | error (e : CommandError)
  | faulted
deriving DecidableEq, Repr

/-- A response as it stands on the response channel: `rsp_status`, `rsp_res`, `rsp_next` (30_encoding.md R60, R67). -/
structure Response where
  status : StatusWord
  res : Word
  next : Word
deriving DecidableEq, Repr

/-- The backing store `S.store` (10_state.md R21): `len` bytes, of which `cells` lists those that are not zero, by rising
index. Equal stores are equal data wherever `Memory.wf` holds (log entry 1). -/
structure Memory where
  len : Nat
  cells : List Host.Cell
deriving DecidableEq, Repr

/-- One thing the host does at the port (70_reset_and_hazards.md R198). The host does its actions one at a time, in the order
of its list (log entry 16, DESIGN CHOICE). -/
inductive HostEvent where
  /-- Present a request and hold it until it transfers; take its response when `takes`, else leave it on the channel. -/
  | request (r : Request) (takes : Bool)
  /-- Raise `rsp_ready`: a response on the channel transfers. -/
  | takeResponse
  /-- Drive the `rst` input to a level (70_reset_and_hazards.md R190). -/
  | driveReset (level : Bool)
deriving DecidableEq, Repr

/-- The state. `store`, `wcur`, `fault` and `fcode` are the spec's `S` (10_state.md R20). `rsp` and `rst` are the port's
(30_encoding.md R60), `config` the parameters (00_scope.md R9), `host` and `responses` the environment's: what the host
does next, oldest first, and the responses that have transferred, oldest first (70_reset_and_hazards.md R199). -/
structure State where
  config : Config
  store : Memory
  wcur : Word
  fault : Bool
  fcode : BitVec 8
  rsp : Option Response
  rst : Bool
  host : List HostEvent
  responses : List Response
deriving DecidableEq, Repr

/-- Why the machine can stop with a fault. -/
inductive Fault where
  /-- Raised by RAWBYTE, INSERT, APPEND, GET and GETC if they called MemRead or MemWrite at an index at or beyond
  `S.len`, where the spec gives those primitives no meaning (00_scope.md R16). Safe: the model stops where the spec says
  no command ever gets (40_backing_store.md R87). -/
  | storeIndexOutOfRange
deriving DecidableEq, Repr

/-- Why the model can refuse an instruction. -/
inductive Refusal where
  /-- Raised by an arm of `exec` whose instruction has no meaning yet. Safe: nothing is claimed of it. No arm does. -/
  | notModelled (mnemonic : String)
deriving DecidableEq, Repr

/-- The outcome of a command or a step. -/
abbrev Result := Host.Outcome State Fault Refusal

/-- The reset state of a block with the given parameters (10_state.md R33, 70_reset_and_hazards.md R190): the empty
store, the cursor at 0, a clear fault latch, an idle port. -/
def State.resetWith (c : Config) : State :=
  { config := c
    store := { len := 0, cells := [] }
    wcur := 0
    fault := false
    fcode := 0
    rsp := none
    rst := false
    host := []
    responses := [] }

/-- The machine right after reset (10_state.md R33), with the parameters of `Config.standard` (log entry 2). -/
def State.reset : State := State.resetWith Config.standard

end Sys2Proof.Machine
end

