-- ==== Sys2Proof/Machine/Flags.lean ====
section
/-! DEFINITION. The status codes and the status word of a response, with its flag bits RVALID and FAULT
(30_encoding.md R67, 60_exceptions.md R161), and the accessors of a response's fields. -/

namespace Sys2Proof.Machine

/-- The codes of the recoverable errors (60_exceptions.md R161). -/
def RecoverableError.bits : RecoverableError → BitVec 8
  | .fieldTooNarrow => 0x01#8
  | .outOfRange => 0x02#8
  | .bufferTooSmall => 0x03#8

/-- The codes of the fatal errors (60_exceptions.md R161). -/
def FatalError.bits : FatalError → BitVec 8
  | .resourceExhausted => 0x10#8
  | .illegalCommand => 0x11#8
  | .badLength => 0x12#8
  | .rawIndexRange => 0x13#8

/-- The code of an error. -/
def CommandError.bits : CommandError → BitVec 8
  | .recoverable e => e.bits
  | .fatal e => e.bits

/-- The value of the CODE field (60_exceptions.md R161). -/
def StatusCode.bits : StatusCode → BitVec 8
  | .ok => 0x00#8
  | .error e => e.bits
  | .faulted => 0x1F#8

/-- The status word: FCODE in bits 23:16, FAULT in bit 9, RVALID in bit 8, CODE in bits 7:0, every other bit 0
(30_encoding.md R67). -/
def statusWord (code : BitVec 8) (rvalid fault : Bool) (fcode : BitVec 8) : StatusWord :=
  0#8 ++ fcode ++ 0#6 ++ BitVec.ofBool fault ++ BitVec.ofBool rvalid ++ code

/-- The CODE field of a response. -/
def Response.code (r : Response) : BitVec 8 := r.status.extractLsb' 0 8

/-- The RVALID flag of a response. -/
def Response.rvalid (r : Response) : Bool := r.status.getLsbD 8

/-- The FAULT flag of a response. -/
def Response.faultFlag (r : Response) : Bool := r.status.getLsbD 9

/-- The FCODE field of a response. -/
def Response.fcode (r : Response) : BitVec 8 := r.status.extractLsb' 16 8

/-- Bits 15:10 of a response's status, reserved. -/
def Response.reservedLow (r : Response) : BitVec 6 := r.status.extractLsb' 10 6

/-- Bits 31:24 of a response's status, reserved. -/
def Response.reservedHigh (r : Response) : BitVec 8 := r.status.extractLsb' 24 8

end Sys2Proof.Machine
end

