-- ==== Sys2Proof/Machine/Operands.lean ====
section
/-! DEFINITION. The operand checks the field commands share: the length against `W` (60_exceptions.md R165 step 3), and
the value against the length and the room it needs against `MAX_BYTES` (steps 4 and 5, for a write). Operands enter as
unsigned numbers, unscaled and never truncated (30_encoding.md R64). -/

namespace Sys2Proof.Machine

/-- A field command's length is legal: `1 ≤ LEN ≤ W` (30_encoding.md R65, 60_exceptions.md R165). -/
def lengthLegal (c : Config) (len : Nat) : Bool := decide (1 ≤ len) && decide (len ≤ c.valueWidth.bits)

/-- The checks of INSERT and APPEND at bit offset `start`, in the order of 60_exceptions.md R165: the value fits its
length, then the field fits the largest store (42_write_path.md R123, R124). Exact arithmetic (41_bit_arithmetic.md
R110). -/
def writeCheck (c : Config) (value start len : Nat) : Option CommandError :=
  if fits value len = false then some (.recoverable .fieldTooNarrow)
  else if ceilBytes (start + len) > c.maxBytes then some (.fatal .resourceExhausted)
  else none

end Sys2Proof.Machine
end

