-- ==== Sys2Proof/Machine/Ops.lean ====
section
/-! DEFINITION. The named operations of the machine: the byte store and its primitives, growth, the pack and unpack
engines, the completion of a command, and raising an error (the block's counterpart of taking an exception). -/

namespace Sys2Proof.Machine

/-! ## The byte store -/

/-- What a byte of the store that `cells` does not list holds: every byte is created zero (40_backing_store.md R81). -/
def unlistedByte : Byte := 0x00#8

/-- The byte at index `i` among the cells. -/
def cellValue : List Host.Cell → Nat → Byte
  | [], _ => unlistedByte
  | (a, b) :: rest, i => if a = i then b else cellValue rest i

/-- The cells with byte `i` set to `b`, kept in order and listing no byte equal to `unlistedByte`. -/
def setCell (i : Nat) (b : Byte) : List Host.Cell → List Host.Cell
  | [] => if b = unlistedByte then [] else [(i, b)]
  | (a, c) :: rest =>
    if i < a then (if b = unlistedByte then (a, c) :: rest else (i, b) :: (a, c) :: rest)
    else if i = a then (if b = unlistedByte then rest else (i, b) :: rest)
    else (a, c) :: setCell i b rest

/-- The canonical form of cells: indices strictly rising from `lo`, all below `hi`, no byte listed that equals
`unlistedByte`. -/
def cellsWf (lo hi : Nat) : List Host.Cell → Bool
  | [] => true
  | (a, b) :: rest => decide (lo ≤ a) && decide (a < hi) && decide (b ≠ unlistedByte) && cellsWf (a + 1) hi rest

/-- The store is in canonical form, and lists no byte at or beyond its length (20_memory.md R51). -/
def Memory.wf (m : Memory) : Bool := cellsWf 0 m.len m.cells

/-- `capacityBits = 8 * S.len` (10_state.md R22). -/
def Memory.capacityBits (m : Memory) : Nat := 8 * m.len

/-- `MemRead(i, 1)`, defined only below `S.len` (00_scope.md R16). -/
def Memory.read (m : Memory) (i : Nat) : Option Byte :=
  if i < m.len then some (cellValue m.cells i) else none

/-- `MemWrite(i, 1, b)`, defined only below `S.len` (00_scope.md R16). -/
def Memory.write (m : Memory) (i : Nat) (b : Byte) : Option Memory :=
  if i < m.len then some { m with cells := setCell i b m.cells } else none

/-- `bitAt(S, p)`, defined for `p < 8 * S.len` (20_memory.md R41). -/
def Memory.bitAt (m : Memory) (p : Nat) : Option Bool :=
  (m.read (byteIndex p)).map (fun b => b.getLsbD (bitInByte p))

/-- A store of `n` zero bytes (40_backing_store.md R83). -/
def Memory.zeros (n : Nat) : Memory := { len := n, cells := [] }

/-- The store cut or extended to exactly `n` bytes: kept bytes as they were, added bytes zero (40_backing_store.md R84,
R81). -/
def Memory.setLen (m : Memory) (n : Nat) : Memory :=
  { len := n, cells := m.cells.filter (fun c => decide (c.1 < min m.len n)) }

/-- `ensureCapacity(bits)`: growth to exactly `ceilBytes(bits)` bytes, or no change (40_backing_store.md R80). -/
def Memory.ensureCapacity (m : Memory) (bits : Nat) : Memory :=
  if m.capacityBits < bits then m.setLen (ceilBytes bits) else m

/-- One read-modify-write: OR `b` into byte `i` (20_memory.md R54). -/
def Memory.orByte (m : Memory) (i : Nat) (b : Byte) : Option Memory :=
  (m.read i).bind (fun old => m.write i (old ||| b))

/-! ## The pack and unpack engines -/

/-- `pack(v, start, L)`: value bit `L - 1 - i` is OR-ed into bit offset `start + i`, first bit first
(42_write_path.md R120). -/
def Memory.pack (v : Word) : (start len : Nat) → Memory → Option Memory
  | _, 0, m => some m
  | start, len + 1, m =>
    (if v.getLsbD len then m.orByte (byteIndex start) (1#8 <<< bitInByte start) else some m).bind
      (fun m' => Memory.pack v (start + 1) len m')

/-- `unpack(start, L)`: the sum over `i` of the bit at `start + i` shifted left by `L - 1 - i`, first bit first
(43_read_path.md R140). -/
def Memory.unpack (m : Memory) : (start len : Nat) → Option Nat
  | _, 0 => some 0
  | start, len + 1 =>
    (m.bitAt start).bind (fun b => (m.unpack (start + 1) len).map (fun rest => b.toNat <<< len + rest))

/-! ## Completing a command -/

/-- The state with another store. -/
def State.withStore (s : State) (m : Memory) : State := { s with store := m }

/-- The state with another write cursor. -/
def State.withWcur (s : State) (w : Word) : State := { s with wcur := w }

/-- The fault latch set with the code of a fatal error (10_state.md R24, R25; 60_exceptions.md R163). -/
def State.latchFault (s : State) (e : FatalError) : State := { s with fault := true, fcode := e.bits }

/-- `respond(code, res, next)`: one response goes onto the response channel (00_scope.md R17). `res = none` is a response
without a result: RVALID is 0 and RES is 0 (30_encoding.md R68). FAULT and FCODE are the latch's after the command
(R67). -/
def State.respond (s : State) (code : StatusCode) (res : Option Word) (next : Word) : State :=
  { s with rsp := some { status := statusWord code.bits res.isSome s.fault s.fcode, res := res.getD 0, next := next } }

/-- `raise E`: a recoverable error changes nothing but the response (60_exceptions.md R162), a fatal one also sets the
fault latch (R163). It saves nothing and transfers control nowhere (R167), and there is no return from it (R168). `next`
is the unadvanced cursor for GETC and 0 for every other command. -/
def State.raise (s : State) (e : CommandError) (next : Word) : State :=
  match e with
  | .recoverable _ => s.respond (.error e) none next
  | .fatal f => (s.latchFault f).respond (.error e) none next

/-- The refusal of a request in the faulted state (60_exceptions.md R164). -/
def State.refuseFaulted (s : State) (next : Word) : State := s.respond .faulted none next

/-- Every command tests the fault latch first (60_exceptions.md R165 step 1). -/
def unlessFaulted (s : State) (next : Word) (run : Result) : Result :=
  if s.fault then .next (s.refuseFaulted next) else run

/-- A field command then tests its length (60_exceptions.md R165 step 3). -/
def withLength (s : State) (len : LenField) (next : Word) (run : Result) : Result :=
  unlessFaulted s next
    (if lengthLegal s.config len.toNat then run else .next (s.raise (.fatal .badLength) next))

/-- What an illegal command word does: FAULTED in the faulted state, else the fatal ILLEGAL_COMMAND, with NEXT 0 in both
(60_exceptions.md R163, R164, R165; 30_encoding.md R66, R68). -/
def State.takeIllegal (s : State) : Result :=
  unlessFaulted s 0 (.next (s.raise (.fatal .illegalCommand) 0))

/-! ## The write and read of a field -/

/-- The write of a field past its length check: the checks of `writeCheck`, then growth, the pack, the cursor, and the
response `RES = LEN` (42_write_path.md R123, R124). `wcurAfter` is the cursor a success leaves. -/
def writeField (s : State) (value : Word) (start : Nat) (len : LenField) (wcurAfter : Word) : Result :=
  match writeCheck s.config value.toNat start len.toNat with
  | some e => .next (s.raise e 0)
  | none =>
    match (s.store.ensureCapacity (start + len.toNat)).pack value start len.toNat with
    | some m => .next (((s.withStore m).withWcur wcurAfter).respond .ok (some (len.zeroExtend 64)) 0)
    | none => .fault .storeIndexOutOfRange

/-- The read of a field past its length check: OUT_OF_RANGE past the capacity, with `nextOnError`, else the field's value
with `nextOnSuccess` (43_read_path.md R142, R143). -/
def readField (s : State) (start : Nat) (len : LenField) (nextOnError nextOnSuccess : Word) : Result :=
  if start + len.toNat > s.store.capacityBits then .next (s.raise (.recoverable .outOfRange) nextOnError)
  else
    match s.store.unpack start len.toNat with
    | some v => .next (s.respond .ok (some (BitVec.ofNat 64 v)) nextOnSuccess)
    | none => .fault .storeIndexOutOfRange

end Sys2Proof.Machine
end

