-- ==== Sys2Proof/Machine/BackingStore.lean ====
section
/-! DEFINITION. The backing store commands NEW, RESIZE, RAWBYTE and CAPBYTES (40_backing_store.md R83 to R86). -/

namespace Sys2Proof.Machine

/-- `NEW size_bits` (40_backing_store.md R83): `ceilBytes(size)` zero bytes in place of the store, the cursor at 0. -/
def execNew (size : Word) (s : State) : Result :=
  unlessFaulted s 0
    (if ceilBytes size.toNat > s.config.maxBytes then .next (s.raise (.fatal .resourceExhausted) 0)
     else .next (((s.withStore (Memory.zeros (ceilBytes size.toNat))).withWcur 0).respond .ok none 0))

/-- `RESIZE n_bytes` (40_backing_store.md R84): refused below the cursor, fatal beyond `MAX_BYTES`, else exactly
`n_bytes` bytes. -/
def execResize (bytes : Word) (s : State) : Result :=
  unlessFaulted s 0
    (if 8 * bytes.toNat < s.wcur.toNat then .next (s.raise (.recoverable .bufferTooSmall) 0)
     else if bytes.toNat > s.config.maxBytes then .next (s.raise (.fatal .resourceExhausted) 0)
     else .next ((s.withStore (s.store.setLen bytes.toNat)).respond .ok none 0))

/-- `RAWBYTE index` (40_backing_store.md R85): one byte of the raw view, an index past it fatal. -/
def execRawbyte (index : Word) (s : State) : Result :=
  unlessFaulted s 0
    (if index.toNat ≥ s.store.len then .next (s.raise (.fatal .rawIndexRange) 0)
     else
       match s.store.read index.toNat with
       | some b => .next (s.respond .ok (some (b.zeroExtend 64)) 0)
       | none => .fault .storeIndexOutOfRange)

/-- `CAPBYTES` (40_backing_store.md R86): the length of the raw view in bytes. -/
def execCapbytes (s : State) : Result :=
  unlessFaulted s 0 (.next (s.respond .ok (some (BitVec.ofNat 64 s.store.len)) 0))

end Sys2Proof.Machine
end

