-- ==== Sys2Proof/Machine/ReadPath.lean ====
section
/-! DEFINITION. The read path commands GET, GETC and SIZEBITS (43_read_path.md R142 to R144). -/

namespace Sys2Proof.Machine

/-- `GET start, len` (43_read_path.md R142): the field at an explicit bit offset. -/
def execGet (start : Word) (len : LenField) (s : State) : Result :=
  withLength s len 0 (readField s start.toNat len 0 0)

/-- `GETC cursor, len` (43_read_path.md R143): the field at the host's cursor, NEXT the cursor advanced by `len`, or
unadvanced on every error. -/
def execGetc (cursor : Word) (len : LenField) (s : State) : Result :=
  withLength s len cursor
    (readField s cursor.toNat len cursor (BitVec.ofNat 64 (cursor.toNat + len.toNat)))

/-- `SIZEBITS` (43_read_path.md R144): the write cursor. -/
def execSizebits (s : State) : Result :=
  unlessFaulted s 0 (.next (s.respond .ok (some s.wcur) 0))

end Sys2Proof.Machine
end

