-- ==== Sys2Proof/Machine/WritePath.lean ====
section
/-! DEFINITION. The write path commands INSERT and APPEND (42_write_path.md R123, R124). -/

namespace Sys2Proof.Machine

/-- `INSERT value, start, len` (42_write_path.md R123): a field at an explicit bit offset; the cursor stays. -/
def execInsert (value start : Word) (len : LenField) (s : State) : Result :=
  withLength s len 0 (writeField s value start.toNat len s.wcur)

/-- `APPEND value, len` (42_write_path.md R124): a field at the write cursor, which advances by `len`. -/
def execAppend (value : Word) (len : LenField) (s : State) : Result :=
  withLength s len 0
    (writeField s value s.wcur.toNat len (BitVec.ofNat 64 (s.wcur.toNat + len.toNat)))

end Sys2Proof.Machine
end

