-- ==== Sys2Proof/Machine/Dispatch.lean ====
section
/-! DEFINITION. The dispatch of a command to its meaning: one arm per constructor of `Instr`. -/

namespace Sys2Proof.Machine

def exec (i : Instr) (s : State) : Host.Outcome State Fault Refusal :=
  match i with
  | .new size => Sys2Proof.Machine.execNew size s
  | .resize bytes => Sys2Proof.Machine.execResize bytes s
  | .rawbyte index => Sys2Proof.Machine.execRawbyte index s
  | .capbytes => Sys2Proof.Machine.execCapbytes s
  | .insert value start len => Sys2Proof.Machine.execInsert value start len s
  | .append value len => Sys2Proof.Machine.execAppend value len s
  | .get start len => Sys2Proof.Machine.execGet start len s
  | .getc cursor len => Sys2Proof.Machine.execGetc cursor len s
  | .sizebits => Sys2Proof.Machine.execSizebits s

end Sys2Proof.Machine
end

