-- ==== Sys2Proof/Machine/Port.lean ====
section
/-! DEFINITION. The command port at the level of transactions (00_scope.md R19): accepting a request, running it,
delivering its response, reset, and the block waiting or idle (30_encoding.md R60, R61; 70_reset_and_hazards.md R190,
R198). -/

namespace Sys2Proof.Machine

/-- `req_ready`: the block holds no command and is not in reset (30_encoding.md R61, 70_reset_and_hazards.md R190). -/
def State.reqReady (s : State) : Bool := !s.rst && s.rsp.isNone

/-- `rsp_valid`: a response stands on the channel, and the block is not in reset (30_encoding.md R61,
70_reset_and_hazards.md R190). -/
def State.rspValid (s : State) : Bool := !s.rst && s.rsp.isSome

/-- The index of the next request (10_state.md R29): the number of responses delivered. -/
def State.requestIndex (s : State) : Nat := s.responses.length

/-- The transfer of the response on the channel, if there is one, to the host (30_encoding.md R61). -/
def State.deliver (s : State) : State :=
  match s.rsp with
  | some r => { s with rsp := none, responses := s.responses ++ [r] }
  | none => s

/-- The state with the remaining actions of the host. -/
def State.withHost (s : State) (h : List HostEvent) : State := { s with host := h }

/-- The state with the `rst` input at a level. -/
def State.withRst (s : State) (level : Bool) : State := { s with rst := level }

/-- A rising edge with `rst = 1` (70_reset_and_hazards.md R190): `S` takes its reset values and an accepted command whose
response has not transferred is discarded. The parameters, the input and the host's further actions stay; the observation
starts anew, since what follows is a new run (R199, log entry 6). -/
def State.applyReset (s : State) : State :=
  ((State.resetWith s.config).withHost s.host).withRst s.rst

/-- The execution of one request: its command's meaning, or the effect of an illegal word (30_encoding.md R66, R73). -/
def execRequest (r : Request) (s : State) : Result :=
  match decode r with
  | .command i => exec i s
  | .illegal _ => s.takeIllegal

/-- Accept a request, execute it and, where the host takes it, deliver its response: one atomic step
(30_encoding.md R61). -/
def transact (r : Request) (takes : Bool) (s : State) : Result :=
  match execRequest r s with
  | .next t => .next (if takes then t.deliver else t)
  | .fault f => .fault f
  | .refused f => .refused f

/-- What the host's next action does while `rst = 1` (70_reset_and_hazards.md R190): `req_ready = rsp_valid = 0`, so a
request waits and no response transfers; `rst` can be driven. DESIGN CHOICE (log entry 16): the host's actions come about in
the order of its list, so a request at its head holds back a `driveReset false` behind it and waits for ever; the spec does
not order the driving of `rst` after a pending request. -/
def portUnderReset (s : State) : State :=
  match s.host with
  | .driveReset level :: rest => (s.applyReset.withHost rest).withRst level
  | .takeResponse :: rest => s.applyReset.withHost rest
  | .request _ _ :: _ => s.applyReset
  | [] => s.applyReset

/-- One step at the port: the host's next action. With none the block is idle and keeps its state (60_exceptions.md
R176). A request the block is not ready for waits, and so does the run, until the held response is taken
(70_reset_and_hazards.md R198, R199; log entry 5). DESIGN CHOICE (log entry 16): a waiting request holds back every action
behind it, so that the host's list must have the action it waits for before it. -/
def portStep (s : State) : Result :=
  if s.rst then .next (portUnderReset s)
  else
    match s.host with
    | [] => .next s
    | .request r takes :: rest => if s.reqReady then transact r takes (s.withHost rest) else .next s
    | .takeResponse :: rest => .next (s.withHost rest).deliver
    | .driveReset level :: rest =>
      .next (if level then ((s.withHost rest).withRst true).applyReset else s.withHost rest)

/-- The state in which the port is ready and the host's next action is a request whose response it takes; nothing else
changes. -/
def State.present (s : State) (r : Request) : State :=
  { s with rsp := none, rst := false, host := .request r true :: s.host }

end Sys2Proof.Machine
end

