-- ==== Sys2Proof/Machine/Step.lean ====
section
/-! DEFINITION. The step of the machine, and the placing of a request where the next step takes it. -/

namespace Sys2Proof.Machine

/-- One step: one action of the host at the port (00_scope.md R19, 30_encoding.md R61). -/
def step (s : State) : Host.Outcome State Fault Refusal := portStep s

/-- The state with the request whose bits are `w`, numbered as spec/opcode_table.json numbers them, as the host's next
action, the port ready to accept it (log entry 3). -/
def State.withFetchWord (s : State) (nbits w : Nat) : State := s.present (requestOfBits nbits w)

end Sys2Proof.Machine
end

