-- ==== Sys2Proof/Machine/Bytewise.lean ====
section
/-! DEFINITION. The source's byte-at-a-time forms of the pack and unpack engines (42_write_path.md R121, 43_read_path.md
R141), which an implementation may use. No command's meaning calls them: the closed forms of Ops.lean are normative. -/

namespace Sys2Proof.Machine

/-- The loop of `pack_bytewise` (42_write_path.md R121). `fuel` bounds its iterations: each places at least one bit. -/
def Memory.packBytewiseLoop (v : Nat) : (fuel pos rem : Nat) → Memory → Option Memory
  | 0, _, _, m => some m
  | fuel + 1, pos, rem, m =>
    let room := bitsRemainingInByte pos
    if rem = 0 then some m
    else if rem > room then
      (m.orByte (byteIndex pos) (BitVec.ofNat 8 (extractBitsShifted v (rem - room) room))).bind
        (fun m' => Memory.packBytewiseLoop v fuel (pos + room) (rem - room) m')
    else m.orByte (byteIndex pos) (BitVec.ofNat 8 (extractBitsShifted v 0 rem <<< (room - rem)))

/-- `pack_bytewise(v, start, L)` (42_write_path.md R121). -/
def Memory.packBytewise (m : Memory) (v : Word) (start len : Nat) : Option Memory :=
  Memory.packBytewiseLoop v.toNat len start len m

/-- The loop of `unpack_bytewise` (43_read_path.md R141). `fuel` bounds its iterations: each gathers at least one bit. -/
def Memory.unpackBytewiseLoop (m : Memory) : (fuel acc pos rem : Nat) → Option Nat
  | 0, acc, _, _ => some acc
  | fuel + 1, acc, pos, rem =>
    let room := bitsRemainingInByte pos
    let take := min rem room
    if rem = 0 then some acc
    else
      (m.read (byteIndex pos)).bind (fun b =>
        let chunk := extractBitsShifted b.toNat (room - take) take
        m.unpackBytewiseLoop fuel (acc ||| (chunk <<< (rem - take))) (pos + take) (rem - take))

/-- `unpack_bytewise(start, L)` (43_read_path.md R141). -/
def Memory.unpackBytewise (m : Memory) (start len : Nat) : Option Nat :=
  m.unpackBytewiseLoop len 0 start len

end Sys2Proof.Machine
end

