-- ==== Sys2Proof/Safety.lean ====
section
/-! DEFINITION. What a safe state, a proper response and a run are, in the terms the claims use. -/

namespace Sys2Proof.Machine

/-- The codes `S.fcode` may hold while the latch is set: those of the fatal errors (10_state.md R25). -/
def isFatalCode (c : BitVec 8) : Bool := c == 0x10#8 || c == 0x11#8 || c == 0x12#8 || c == 0x13#8

/-- The invariants of 10_state.md R26, and two clauses R26 does not give: `configLegal`, the legal values of the parameters
(00_scope.md R9), and `storeWf`, the canonical form of the model's own representation of the store (log entry 1, DESIGN
CHOICE). R26 gives: 1. `S.wcur ≤ 8 * S.len`; 2. `S.len ≤ MAX_BYTES`; 3. the fault code is 0 exactly while the latch is
clear, and else a fatal code. -/
structure State.Inv (s : State) : Prop where
  configLegal : s.config.legal = true
  storeWf : s.store.wf = true
  cursorInCapacity : s.wcur.toNat ≤ s.store.capacityBits
  lenBounded : s.store.len ≤ s.config.maxBytes
  clearCode : s.fault = false → s.fcode = 0#8
  latchedCode : s.fault = true → isFatalCode s.fcode = true

/-- The codes of 60_exceptions.md R161. -/
def isStatusCode (c : BitVec 8) : Bool :=
  c == 0x00#8 || c == 0x01#8 || c == 0x02#8 || c == 0x03#8 || isFatalCode c || c == 0x1F#8

/-- A response of the form 30_encoding.md R67 and R68 and 60_exceptions.md R161 give: a code of the table, reserved bits
0, RVALID only with code OK, and RES 0 without RVALID. -/
def Response.proper (r : Response) : Bool :=
  isStatusCode r.code && r.reservedLow == 0#6 && r.reservedHigh == 0#8 &&
    (!r.rvalid || r.code == 0x00#8) && (r.rvalid || r.res == 0#64)

/-- The four elements of `S` agree (10_state.md R20). -/
def State.sameS (s t : State) : Prop :=
  t.store = s.store ∧ t.wcur = s.wcur ∧ t.fault = s.fault ∧ t.fcode = s.fcode

/-- What no command writes: the parameters, the reset input, the host's further actions and the responses already
delivered. -/
def State.sameSurroundings (s t : State) : Prop :=
  t.config = s.config ∧ t.rst = s.rst ∧ t.host = s.host ∧ t.responses = s.responses

/-- A success response (30_encoding.md R67, R74): CODE OK, RVALID as a result is given or not, FAULT clear, and `S.fcode`
in FCODE. -/
def okResponse (fcode : BitVec 8) (res : Option Word) (next : Word) : Response :=
  { status := statusWord 0x00#8 res.isSome false fcode, res := res.getD 0, next := next }

/-- An error response with the latch as it stands after the command (60_exceptions.md R162 to R164). -/
def errorResponse (code : BitVec 8) (fault : Bool) (fcode : BitVec 8) (next : Word) : Response :=
  { status := statusWord code false fault fcode, res := 0, next := next }

/-- The completion of a request in the faulted state (60_exceptions.md R164). -/
def State.CompletesRefused (s t : State) (next : Word) : Prop :=
  s.sameS t ∧ s.sameSurroundings t ∧ t.rsp = some (errorResponse 0x1F#8 true s.fcode next)

/-- The completion of a recoverable error: no element of `S` changes (60_exceptions.md R162). -/
def State.CompletesRecoverable (s t : State) (code : BitVec 8) (next : Word) : Prop :=
  s.sameS t ∧ s.sameSurroundings t ∧ t.rsp = some (errorResponse code s.fault s.fcode next)

/-- The completion of a fatal error: the latch is set with its code, the store and the cursor stay
(60_exceptions.md R163). -/
def State.CompletesFatal (s t : State) (code : BitVec 8) (next : Word) : Prop :=
  t.store = s.store ∧ t.wcur = s.wcur ∧ t.fault = true ∧ t.fcode = code ∧ s.sameSurroundings t ∧
    t.rsp = some (errorResponse code true code next)

/-- The completion of a success, but for what the command does to the store and the cursor: the latch stays as it was,
and the response is given (00_scope.md R17). -/
def State.CompletesOk (s t : State) (res : Option Word) (next : Word) : Prop :=
  t.fault = s.fault ∧ t.fcode = s.fcode ∧ s.sameSurroundings t ∧ t.rsp = some (okResponse s.fcode res next)

/-- The NEXT field of an error response to a request: the unadvanced cursor where the word decodes as GETC, else 0
(30_encoding.md R68, 60_exceptions.md R162 to R164). -/
def errorNext (r : Request) : Word :=
  match decodeOpcode r.cmd with
  | some .getc => r.opb
  | _ => 0

/-- The range condition of a command, step 5 of 60_exceptions.md R165: its code, or OK. -/
def rangeCondition (o : Opcode) (r : Request) (s : State) : BitVec 8 :=
  match o with
  | .new => if s.config.maxBytes < ceilBytes r.opb.toNat then 0x10#8 else 0x00#8
  | .resize =>
    if 8 * r.opb.toNat < s.wcur.toNat then 0x03#8
    else if s.config.maxBytes < r.opb.toNat then 0x10#8 else 0x00#8
  | .rawbyte => if s.store.len ≤ r.opb.toNat then 0x13#8 else 0x00#8
  | .insert => if s.config.maxBytes < ceilBytes (r.opb.toNat + (cmdLen r.cmd).toNat) then 0x10#8 else 0x00#8
  | .append => if s.config.maxBytes < ceilBytes (s.wcur.toNat + (cmdLen r.cmd).toNat) then 0x10#8 else 0x00#8
  | .get => if 8 * s.store.len < r.opb.toNat + (cmdLen r.cmd).toNat then 0x02#8 else 0x00#8
  | .getc => if 8 * s.store.len < r.opb.toNat + (cmdLen r.cmd).toNat then 0x02#8 else 0x00#8
  | .capbytes => 0x00#8
  | .sizebits => 0x00#8

/-- A command that requires `1 ≤ LEN ≤ W`: the rows marked F (30_encoding.md R65). -/
def isField (o : Opcode) : Bool := o == .insert || o == .append || o == .get || o == .getc

/-- The code of the first condition that applies to a request, in the order of 60_exceptions.md R165, or OK. -/
def firstCondition (r : Request) (s : State) : BitVec 8 :=
  if s.fault then 0x1F#8
  else
    match decodeOpcode r.cmd with
    | none => 0x11#8
    | some o =>
      if isField o ∧ ((cmdLen r.cmd).toNat = 0 ∨ s.config.valueWidth.bits < (cmdLen r.cmd).toNat) then 0x12#8
      else if (o = .insert ∨ o = .append) ∧ 2 ^ (cmdLen r.cmd).toNat ≤ r.opa.toNat then 0x01#8
      else rangeCondition o r s

/-- The step from `s` is one at which `rst` is 1 or driven to 1 (70_reset_and_hazards.md R190). -/
def State.resets (s : State) : Prop := s.rst = true ∨ ∃ rest, s.host = .driveReset true :: rest

/-- The step from `s` accepts the request `r`: the block is ready and `r` is the host's next action (30_encoding.md R61). -/
def State.accepts (s : State) (r : Request) : Prop :=
  s.reqReady = true ∧ ∃ takes rest, s.host = .request r takes :: rest

/-- The step from `s` to `t` completed a command with the response `q`, delivered to the host or standing on the channel
(30_encoding.md R61). -/
def State.answers (s t : State) (q : Response) : Prop :=
  t.rsp = none ∧ t.responses = s.responses ++ [q] ∨ t.rsp = some q ∧ t.responses = s.responses

/-- The bit a field `(v, len)` at bit offset `start` brings to offset `p`: value bit `len - 1 - (p - start)` inside the
field, and nothing outside it (20_memory.md R42). -/
def fieldBit (v : Word) (start len p : Nat) : Bool :=
  decide (start ≤ p) && decide (p < start + len) && v.getLsbD (len - 1 - (p - start))

/-- `m'` is `m` after a successful write of field `(v, len)` at bit offset `start`: grown to hold it and no further
(40_backing_store.md R80), the field OR-ed in (42_write_path.md R120), every kept byte outside the field's bytes as it was
and every added one zero (R122). -/
structure Memory.FieldWritten (m m' : Memory) (v : Word) (start len : Nat) : Prop where
  grown : m'.len = max m.len (ceilBytes (start + len))
  bits : ∀ p, p < m'.capacityBits → m'.bitAt p = some ((m.bitAt p).getD false || fieldBit v start len p)
  keptBytes : ∀ i, i < m.len → (i < byteIndex start ∨ byteIndex (start + len - 1) < i) → m'.read i = m.read i
  addedBytes : ∀ i, m.len ≤ i → i < m'.len → (i < byteIndex start ∨ byteIndex (start + len - 1) < i) →
    m'.read i = some 0#8

/-- What a success of a command leaves of the store and the write cursor (40_backing_store.md R83, R84; 42_write_path.md
R123, R124; 20_memory.md R48). -/
def State.AfterSuccess (s : State) (i : Instr) (t : State) : Prop :=
  match i with
  | .new size => t.store = Memory.zeros (ceilBytes size.toNat) ∧ t.wcur = 0
  | .resize bytes => t.store = s.store.setLen bytes.toNat ∧ t.wcur = s.wcur
  | .insert value start len => s.store.FieldWritten t.store value start.toNat len.toNat ∧ t.wcur = s.wcur
  | .append value len =>
    s.store.FieldWritten t.store value s.wcur.toNat len.toNat ∧ t.wcur = BitVec.ofNat 64 (s.wcur.toNat + len.toNat)
  | .rawbyte _ => t.store = s.store ∧ t.wcur = s.wcur
  | .capbytes => t.store = s.store ∧ t.wcur = s.wcur
  | .get _ _ => t.store = s.store ∧ t.wcur = s.wcur
  | .getc _ _ => t.store = s.store ∧ t.wcur = s.wcur
  | .sizebits => t.store = s.store ∧ t.wcur = s.wcur

/-- The host's actions that present the requests in order, taking each response: a program (00_scope.md R19). -/
def programEvents (rs : List Request) : List HostEvent := rs.map (fun r => .request r true)

/-- The store as the sequence of bytes of 10_state.md R21. -/
def Memory.bytes (m : Memory) : List Byte := (List.range m.len).map (cellValue m.cells)

/-- The fields of a list appended one after another by APPEND, each with success; `none` where one does not succeed
(43_read_path.md R146). -/
def appendAll : List (Word × LenField) → State → Option State
  | [], s => some s
  | (v, len) :: rest, s =>
    match exec (.append v len) s with
    | .next t => if (t.rsp.map Response.code) = some 0x00#8 then appendAll rest t else none
    | .fault _ => none
    | .refused _ => none

/-- The cumulative bit offset of the `j`-th field of a list appended from offset `o` (43_read_path.md R146). -/
def fieldOffset (o : Nat) (fields : List (Word × LenField)) (j : Nat) : Nat :=
  o + ((fields.take j).map (fun f => f.2.toNat)).sum

end Sys2Proof.Machine
end

