-- ==== Sys2Proof/Certificates/Slice0/Obligations.lean ====
section
/-! DEFINITION. The statements about the machine, each from a numbered rule of spec/ or derived from the sections it
names. -/

open Sys2Proof Sys2Proof.Machine

/-! ## Decoding and encoding -/

/-- Decoding an encoded command gives it back, with every operand at every value (30_encoding.md R62, R65, R69). -/
def Obligations.DecodeOfEncodeIsTheCommand : Prop := ∀ i : Instr, decode (encode i) = .command i

/-- 30_encoding.md R73: no two rows match one word; a word that matches a row decodes to that row's command; a word that
matches no row is illegal. -/
def Obligations.DecodingIsTheUniqueMatchingRow : Prop :=
  (∀ (w : CmdWord) (o o' : Opcode), o.matches w = true → o'.matches w = true → o = o') ∧
  (∀ (r : Request) (o : Opcode), o.matches r.cmd = true → decode r = .command (o.command r)) ∧
  (∀ r : Request, (∀ o : Opcode, o.matches r.cmd = false) → ∃ why, decode r = .illegal why)

/-- A decoded request is the encoding of its command but for the operands the command ignores, where the encoder writes 0:
OPA is used by INSERT and APPEND, and OPB ignored by CAPBYTES, APPEND and SIZEBITS (30_encoding.md R63, R65, R69). -/
def Obligations.EncodeOfDecodeIsTheCommandWord : Prop :=
  ∀ (r : Request) (i : Instr), decode r = .command i →
    (encode i).cmd = r.cmd ∧
      (encode i).opa = (if i.opcode = .insert ∨ i.opcode = .append then r.opa else 0) ∧
      (encode i).opb = (if i.opcode = .new ∨ i.opcode = .resize ∨ i.opcode = .rawbyte ∨ i.opcode = .insert ∨
        i.opcode = .get ∨ i.opcode = .getc then r.opb else 0)

/-- 30_encoding.md R66: a word is illegal exactly where OP is unassigned, RSVD is not zero, or LEN is not zero on a Z
command, and in a block that is not faulted it completes with the fatal ILLEGAL_COMMAND; a field command whose LEN is 0 or
above `W` decodes, and fails with BAD_LENGTH. -/
def Obligations.IllegalWordsAreRule66AndFatal : Prop :=
  ∀ r : Request,
    ((∃ why, decode r = .illegal why) ↔
      (cmdOp r.cmd = 0x0#4 ∨ 0xA#4 ≤ cmdOp r.cmd) ∨ cmdRsvd r.cmd ≠ 0#21 ∨
        ((cmdOp r.cmd = 0x1#4 ∨ cmdOp r.cmd = 0x2#4 ∨ cmdOp r.cmd = 0x3#4 ∨ cmdOp r.cmd = 0x4#4 ∨
          cmdOp r.cmd = 0x9#4) ∧ cmdLen r.cmd ≠ 0#7)) ∧
    ∀ s : State, s.fault = false →
      ((∃ why, decode r = .illegal why) → ∃ t, execRequest r s = .next t ∧ s.CompletesFatal t 0x11#8 0) ∧
      (∀ i, decode r = .command i → isField i.opcode = true →
        ((cmdLen r.cmd).toNat = 0 ∨ s.config.valueWidth.bits < (cmdLen r.cmd).toNat) →
        ∃ t, execRequest r s = .next t ∧ s.CompletesFatal t 0x12#8 (errorNext r))

/-- Words written out from the encoding tables decode to the commands they stand for (30_encoding.md R62, R65). -/
def Obligations.WrittenOutWordsDecode : Prop :=
  decode { cmd := 0b00000000000000000000000000000001#32, opa := 7, opb := 12 } = .command (.new 12) ∧
  decode { cmd := 0b00000000000000000000000011000101#32, opa := 0xABC, opb := 4 } = .command (.insert 0xABC 4 12) ∧
  decode { cmd := 0b00000000000000000000010000001000#32, opa := 0, opb := 1 } = .command (.getc 1 64) ∧
  decode { cmd := 0b00000000000000000000100000000110#32, opa := 0, opb := 0 } = .illegal .reservedBits

/-- 30_encoding.md R69, R70: the request of every line the assembler accepts, the lines it refuses, and `NEW` alone as
`NEW 0`. -/
def Obligations.AssemblerFollowsItsTable : Prop :=
  (∀ n : Nat,
    assemble (.new (some n)) = (if n < 2 ^ 64 then some ⟨0x1#32, 0, BitVec.ofNat 64 n⟩ else none) ∧
    assemble (.resize n) = (if n < 2 ^ 64 then some ⟨0x2#32, 0, BitVec.ofNat 64 n⟩ else none) ∧
    assemble (.rawbyte n) = (if n < 2 ^ 64 then some ⟨0x3#32, 0, BitVec.ofNat 64 n⟩ else none)) ∧
  assemble .capbytes = some ⟨0x4#32, 0, 0⟩ ∧ assemble .sizebits = some ⟨0x9#32, 0, 0⟩ ∧
  (∀ v p l : Nat,
    assemble (.insert v p l) = (if v < 2 ^ 64 ∧ p < 2 ^ 64 ∧ l ≤ 127
      then some ⟨BitVec.ofNat 32 (l <<< 4 ||| 0x5), BitVec.ofNat 64 v, BitVec.ofNat 64 p⟩ else none) ∧
    assemble (.append v l) = (if v < 2 ^ 64 ∧ l ≤ 127
      then some ⟨BitVec.ofNat 32 (l <<< 4 ||| 0x6), BitVec.ofNat 64 v, 0⟩ else none) ∧
    assemble (.get p l) = (if p < 2 ^ 64 ∧ l ≤ 127
      then some ⟨BitVec.ofNat 32 (l <<< 4 ||| 0x7), 0, BitVec.ofNat 64 p⟩ else none) ∧
    assemble (.getc p l) = (if p < 2 ^ 64 ∧ l ≤ 127
      then some ⟨BitVec.ofNat 32 (l <<< 4 ||| 0x8), 0, BitVec.ofNat 64 p⟩ else none)) ∧
  assemble (.new none) = assemble (.new (some 0))

/-- 30_encoding.md R63: an operand a command does not use affects neither its outcome nor its response. -/
def Obligations.IgnoredOperandsAffectNothing : Prop :=
  ∀ (r : Request) (i : Instr) (x : Word) (s : State), decode r = .command i →
    (i.opcode ≠ .insert → i.opcode ≠ .append → execRequest { r with opa := x } s = execRequest r s) ∧
    (i.opcode = .capbytes ∨ i.opcode = .append ∨ i.opcode = .sizebits →
      execRequest { r with opb := x } s = execRequest r s)

/-! ## Reset and the invariants -/

/-- 10_state.md R33: the value of every state element after reset, whatever the parameters. -/
def Obligations.ResetValuesAreTheSpecs : Prop :=
  (∀ c : Config, (State.resetWith c).store.len = 0 ∧ (State.resetWith c).store.capacityBits = 0 ∧
    (∀ i, (State.resetWith c).store.read i = none) ∧ (State.resetWith c).wcur = 0#64 ∧
    (State.resetWith c).fault = false ∧ (State.resetWith c).fcode = 0x00#8) ∧
  State.reset = State.resetWith Config.standard

/-- The invariants hold at reset, for every legal choice of the parameters (00_scope.md R9): those of 10_state.md R26, at
the values of R33, and `State.Inv.storeWf`, the canonical form of the store's representation, which is the model's own
choice (log entry 1). -/
def Obligations.ResetSatisfiesTheInvariants : Prop :=
  State.reset.Inv ∧ ∀ c : Config, c.legal = true → (State.resetWith c).Inv

/-- Every step keeps the invariants of 10_state.md R26, and with them two clauses that rule does not give: the parameters
stay legal (00_scope.md R9), and the store stays in the canonical form of its representation, `State.Inv.storeWf`, which is
the model's own choice (log entry 1). -/
def Obligations.StepKeepsTheInvariants : Prop :=
  ∀ s t : State, s.Inv → step s = .next t → t.Inv

/-! ## Completion and the port -/

/-- Every command, in every state, answers a next state with a proper response on the channel and with nothing but `S` and
the channel changed; in particular none calls MemRead or MemWrite beyond the store (60_exceptions.md R160, R161;
40_backing_store.md R87). -/
def Obligations.EveryCommandCompletesProperly : Prop :=
  ∀ (i : Instr) (s : State), ∃ t q, exec i s = .next t ∧ s.sameSurroundings t ∧ t.rsp = some q ∧ q.proper = true

/-- 60_exceptions.md R160: an accepted request, legal or not, gets exactly one response with one code of the table. The
request index advances by one where the response transfers (10_state.md R29); a response the host does not take stands on
the channel. -/
def Obligations.AcceptedRequestGetsOneResponse : Prop :=
  ∀ (s : State) (r : Request) (rest : List HostEvent),
    s.reqReady = true →
    (s.host = .request r true :: rest →
      ∃ t q, step s = .next t ∧ t.responses = s.responses ++ [q] ∧ isStatusCode q.code = true ∧ t.rsp = none ∧
        t.requestIndex = s.requestIndex + 1 ∧ t.host = rest) ∧
    (s.host = .request r false :: rest →
      ∃ t q, step s = .next t ∧ t.responses = s.responses ∧ isStatusCode q.code = true ∧ t.rsp = some q ∧
        t.requestIndex = s.requestIndex ∧ t.host = rest)

/-- A step at which a request is accepted runs the command its words decode to, on the state without that request, and
then delivers the response where the host takes it (30_encoding.md R61, R73). -/
def Obligations.StepRunsTheDecodedCommand : Prop :=
  ∀ (s t : State) (r : Request) (takes : Bool) (rest : List HostEvent) (i : Instr),
    s.reqReady = true → s.host = .request r takes :: rest → decode r = .command i →
    exec i (s.withHost rest) = .next t → step s = .next (if takes then t.deliver else t)

/-- While a response stands on the channel it is held stable and no request is accepted, until the host takes it; then it
transfers and the block is ready (30_encoding.md R61, 70_reset_and_hazards.md R198). That the request at the head of the
host's list holds back the host's other actions is the model's choice (log entries 5 and 16). -/
def Obligations.HeldResponseBlocksUntilTaken : Prop :=
  ∀ (s : State) (q : Response), s.rst = false → s.rsp = some q →
    s.reqReady = false ∧ s.rspValid = true ∧
    (∀ r takes rest, s.host = .request r takes :: rest → step s = .next s) ∧
    (∀ rest, s.host = .takeResponse :: rest →
      ∃ t, step s = .next t ∧ s.sameS t ∧ t.config = s.config ∧ t.rst = false ∧ t.host = rest ∧
        t.responses = s.responses ++ [q] ∧ t.rsp = none ∧ t.reqReady = true)

/-- A block with nothing to do keeps its whole state (60_exceptions.md R176). -/
def Obligations.IdleBlockKeepsItsState : Prop :=
  ∀ s : State, s.rst = false → s.host = [] → step s = .next s

/-- 70_reset_and_hazards.md R190: an edge with `rst = 1` sets `S` to its reset values and discards a command whose response
has not transferred, which is never delivered; `req_ready` and `rsp_valid` are then 0; while `rst` stays 1 every step sets
`S` again and accepts nothing; with `rst` back at 0 the block is ready; and nothing else clears the fault latch. That only a
`driveReset false` at the head of the host's list ends the reset, so that `rst` stays 1 while a request waits there, is the
model's choice (log entry 16), and so is what becomes of the list of responses (log entry 6). -/
def Obligations.ResetClearsTheBlock : Prop :=
  (∀ (s : State) (rest : List HostEvent), s.host = .driveReset true :: rest →
    ∃ t, step s = .next t ∧ (State.resetWith s.config).sameS t ∧ t.rsp = none ∧
      t.responses <+: s.responses ∧ t.config = s.config ∧ t.host = rest ∧ t.rst = true ∧ t.reqReady = false ∧ t.rspValid = false) ∧
  (∀ s : State, s.rst = true → s.reqReady = false ∧ s.rspValid = false ∧
    ∃ t, step s = .next t ∧ (State.resetWith s.config).sameS t ∧ t.rsp = none ∧
      ((∃ rest, s.host = .driveReset false :: rest) → t.rst = false ∧ t.reqReady = true) ∧
      ((¬ ∃ rest, s.host = .driveReset false :: rest) → t.rst = true) ∧
      (∀ r takes rest, s.host = .request r takes :: rest → t.host = s.host)) ∧
  (∀ s t : State, s.fault = true → step s = .next t → t.fault = false →
    s.rst = true ∨ ∃ rest, s.host = .driveReset true :: rest)

/-- A program of `k` requests, whatever they are, ends in `k` steps with `k` responses delivered after the earlier ones,
the block ready for the next request (70_reset_and_hazards.md R199, 60_exceptions.md R160, 30_encoding.md R61). -/
def Obligations.ProgramOfKRequestsGetsKResponses : Prop :=
  ∀ (rs : List Request) (s : State), s.reqReady = true → s.host = programEvents rs →
    ∃ t qs, Host.Core.run core rs.length s = .next t ∧ t.responses = s.responses ++ qs ∧ qs.length = rs.length ∧
      (∀ q ∈ qs, q.proper = true) ∧ t.host = [] ∧ t.reqReady = true

/-! ## The backing store commands -/

/-- 40_backing_store.md R83: what NEW does, on every operand and state. -/
def Obligations.NewFollowsItsRule : Prop :=
  ∀ (size : Word) (s : State),
    (s.fault = true → ∃ t, exec (.new size) s = .next t ∧ s.CompletesRefused t 0) ∧
    (s.fault = false → s.config.maxBytes < (size.toNat + 7) / 8 →
      ∃ t, exec (.new size) s = .next t ∧ s.CompletesFatal t 0x10#8 0) ∧
    (s.fault = false → (size.toNat + 7) / 8 ≤ s.config.maxBytes →
      ∃ t, exec (.new size) s = .next t ∧ s.CompletesOk t none 0 ∧ t.wcur = 0 ∧
        t.store.len = (size.toNat + 7) / 8 ∧ ∀ i, i < (size.toNat + 7) / 8 → t.store.read i = some 0x00#8)

/-- 40_backing_store.md R84: what RESIZE does, on every operand and state; bytes kept are unchanged and bytes added are
zero; under the invariants its two range conditions never hold together. -/
def Obligations.ResizeFollowsItsRule : Prop :=
  ∀ (n : Word) (s : State),
    (s.fault = true → ∃ t, exec (.resize n) s = .next t ∧ s.CompletesRefused t 0) ∧
    (s.fault = false → 8 * n.toNat < s.wcur.toNat →
      ∃ t, exec (.resize n) s = .next t ∧ s.CompletesRecoverable t 0x03#8 0) ∧
    (s.fault = false → s.wcur.toNat ≤ 8 * n.toNat → s.config.maxBytes < n.toNat →
      ∃ t, exec (.resize n) s = .next t ∧ s.CompletesFatal t 0x10#8 0) ∧
    (s.fault = false → s.wcur.toNat ≤ 8 * n.toNat → n.toNat ≤ s.config.maxBytes →
      ∃ t, exec (.resize n) s = .next t ∧ s.CompletesOk t none 0 ∧ t.wcur = s.wcur ∧ t.store.len = n.toNat ∧
        (∀ i, i < n.toNat → i < s.store.len → t.store.read i = s.store.read i) ∧
        (∀ i, i < n.toNat → s.store.len ≤ i → t.store.read i = some 0x00#8)) ∧
    (s.Inv → ¬ (8 * n.toNat < s.wcur.toNat ∧ s.config.maxBytes < n.toNat))

/-- 40_backing_store.md R85: what RAWBYTE does, on every operand and state. -/
def Obligations.RawbyteFollowsItsRule : Prop :=
  ∀ (index : Word) (s : State),
    (s.fault = true → ∃ t, exec (.rawbyte index) s = .next t ∧ s.CompletesRefused t 0) ∧
    (s.fault = false → s.store.len ≤ index.toNat →
      ∃ t, exec (.rawbyte index) s = .next t ∧ s.CompletesFatal t 0x13#8 0) ∧
    (s.fault = false → index.toNat < s.store.len →
      ∃ t b, exec (.rawbyte index) s = .next t ∧ s.store.read index.toNat = some b ∧
        s.CompletesOk t (some (b.zeroExtend 64)) 0 ∧ s.sameS t)

/-- 40_backing_store.md R86: what CAPBYTES does. The result is `S.len` as 64 bits, which under the invariants is `S.len`
itself. -/
def Obligations.CapbytesFollowsItsRule : Prop :=
  ∀ s : State,
    (s.fault = true → ∃ t, exec .capbytes s = .next t ∧ s.CompletesRefused t 0) ∧
    (s.fault = false →
      ∃ t, exec .capbytes s = .next t ∧ s.CompletesOk t (some (BitVec.ofNat 64 s.store.len)) 0 ∧ s.sameS t) ∧
    (s.Inv → (BitVec.ofNat 64 s.store.len).toNat = s.store.len)

/-- A RESIZE that shrinks and one that grows again leave zero bytes where the dropped bytes were (40_backing_store.md R81,
70_reset_and_hazards.md R195). -/
def Obligations.DroppedBytesComeBackZero : Prop :=
  ∀ (n k : Word) (s t u : State) (i : Nat),
    exec (.resize n) s = .next t → t.rsp = some (okResponse s.fcode none 0) →
    exec (.resize k) t = .next u → u.rsp = some (okResponse t.fcode none 0) →
    n.toNat ≤ i → i < k.toNat → u.store.read i = some 0x00#8

/-! ## The write path -/

/-- 42_write_path.md R123: what INSERT does, on every operand and state, with the order of its checks and its frame. -/
def Obligations.InsertFollowsItsRule : Prop :=
  ∀ (v start : Word) (len : LenField) (s : State),
    (s.fault = true → ∃ t, exec (.insert v start len) s = .next t ∧ s.CompletesRefused t 0) ∧
    (s.fault = false → (len.toNat = 0 ∨ s.config.valueWidth.bits < len.toNat) →
      ∃ t, exec (.insert v start len) s = .next t ∧ s.CompletesFatal t 0x12#8 0) ∧
    (s.fault = false → 1 ≤ len.toNat → len.toNat ≤ s.config.valueWidth.bits → 2 ^ len.toNat ≤ v.toNat →
      ∃ t, exec (.insert v start len) s = .next t ∧ s.CompletesRecoverable t 0x01#8 0) ∧
    (s.fault = false → 1 ≤ len.toNat → len.toNat ≤ s.config.valueWidth.bits → v.toNat < 2 ^ len.toNat →
      s.config.maxBytes < ceilBytes (start.toNat + len.toNat) →
      ∃ t, exec (.insert v start len) s = .next t ∧ s.CompletesFatal t 0x10#8 0) ∧
    (s.fault = false → 1 ≤ len.toNat → len.toNat ≤ s.config.valueWidth.bits → v.toNat < 2 ^ len.toNat →
      ceilBytes (start.toNat + len.toNat) ≤ s.config.maxBytes →
      ∃ t, exec (.insert v start len) s = .next t ∧ s.CompletesOk t (some (len.zeroExtend 64)) 0 ∧ t.wcur = s.wcur ∧
        s.store.FieldWritten t.store v start.toNat len.toNat)

/-- 42_write_path.md R124: what APPEND does, on every operand and every state with legal parameters. -/
def Obligations.AppendFollowsItsRule : Prop :=
  ∀ (v : Word) (len : LenField) (s : State), s.config.legal = true →
    (s.fault = true → ∃ t, exec (.append v len) s = .next t ∧ s.CompletesRefused t 0) ∧
    (s.fault = false → (len.toNat = 0 ∨ s.config.valueWidth.bits < len.toNat) →
      ∃ t, exec (.append v len) s = .next t ∧ s.CompletesFatal t 0x12#8 0) ∧
    (s.fault = false → 1 ≤ len.toNat → len.toNat ≤ s.config.valueWidth.bits → 2 ^ len.toNat ≤ v.toNat →
      ∃ t, exec (.append v len) s = .next t ∧ s.CompletesRecoverable t 0x01#8 0) ∧
    (s.fault = false → 1 ≤ len.toNat → len.toNat ≤ s.config.valueWidth.bits → v.toNat < 2 ^ len.toNat →
      s.config.maxBytes < ceilBytes (s.wcur.toNat + len.toNat) →
      ∃ t, exec (.append v len) s = .next t ∧ s.CompletesFatal t 0x10#8 0) ∧
    (s.fault = false → 1 ≤ len.toNat → len.toNat ≤ s.config.valueWidth.bits → v.toNat < 2 ^ len.toNat →
      ceilBytes (s.wcur.toNat + len.toNat) ≤ s.config.maxBytes →
      ∃ t, exec (.append v len) s = .next t ∧ s.CompletesOk t (some (len.zeroExtend 64)) 0 ∧
        t.wcur.toNat = s.wcur.toNat + len.toNat ∧
        t.store.len = max s.store.len (ceilBytes t.wcur.toNat) ∧
        s.store.FieldWritten t.store v s.wcur.toNat len.toNat)

/-- 42_write_path.md R125: a value with a one bit at or above bit `W` does not fit, whatever the legal length: it is never
truncated. -/
def Obligations.ValueWiderThanWNeverFits : Prop :=
  ∀ (v start : Word) (len : LenField) (s : State) (k : Nat),
    s.fault = false → 1 ≤ len.toNat → len.toNat ≤ s.config.valueWidth.bits →
    s.config.valueWidth.bits ≤ k → v.getLsbD k = true →
    (∃ t, exec (.insert v start len) s = .next t ∧ s.CompletesRecoverable t 0x01#8 0) ∧
    (∃ t, exec (.append v len) s = .next t ∧ s.CompletesRecoverable t 0x01#8 0)

/-- 20_memory.md R49: INSERT and APPEND never clear a bit; a second INSERT of the same field changes nothing in `S`; a
second APPEND does, since each advances the cursor. -/
def Obligations.WritesOnlySetBitsAndInsertIsIdempotent : Prop :=
  (∀ (i : Instr) (s t : State) (p : Nat), i.opcode = .insert ∨ i.opcode = .append → exec i s = .next t →
    s.store.bitAt p = some true → t.store.bitAt p = some true) ∧
  (∀ (v start : Word) (len : LenField) (s t : State), s.Inv → exec (.insert v start len) s = .next t →
    t.rsp = some (okResponse s.fcode (some (len.zeroExtend 64)) 0) →
    ∃ u, exec (.insert v start len) t = .next u ∧ t.sameS u ∧ u.rsp = t.rsp) ∧
  (∀ (v : Word) (len : LenField) (s t : State), s.Inv → exec (.append v len) s = .next t →
    t.rsp = some (okResponse s.fcode (some (len.zeroExtend 64)) 0) → s.wcur.toNat < t.wcur.toNat)

/-- The byte-at-a-time algorithm of 42_write_path.md R121 gives the result of `pack` (R120). -/
def Obligations.PackBytewiseEqualsPack : Prop :=
  ∀ (m : Memory) (v : Word) (start len : Nat), m.wf = true → start + len ≤ m.capacityBits →
    m.packBytewise v start len = Memory.pack v start len m

/-- INSERT at the largest offset is RESOURCE_EXHAUSTED, not a write at a wrapped offset, for every legal `MAX_BYTES`
(41_bit_arithmetic.md R110). -/
def Obligations.OffsetArithmeticDoesNotWrap : Prop :=
  ∀ s : State, s.config.legal = true → s.fault = false →
    ∃ t, exec (.insert 0 0xFFFFFFFFFFFFFFFF#64 8) s = .next t ∧ s.CompletesFatal t 0x10#8 0

/-! ## The read path -/

/-- 43_read_path.md R142: what GET does, on every operand and state: the result is the number below `2 ^ len` whose bit
`len - 1 - k` is the bit at offset `start + k`. -/
def Obligations.GetFollowsItsRule : Prop :=
  ∀ (start : Word) (len : LenField) (s : State),
    (s.fault = true → ∃ t, exec (.get start len) s = .next t ∧ s.CompletesRefused t 0) ∧
    (s.fault = false → (len.toNat = 0 ∨ s.config.valueWidth.bits < len.toNat) →
      ∃ t, exec (.get start len) s = .next t ∧ s.CompletesFatal t 0x12#8 0) ∧
    (s.fault = false → 1 ≤ len.toNat → len.toNat ≤ s.config.valueWidth.bits →
      8 * s.store.len < start.toNat + len.toNat →
      ∃ t, exec (.get start len) s = .next t ∧ s.CompletesRecoverable t 0x02#8 0) ∧
    (s.fault = false → 1 ≤ len.toNat → len.toNat ≤ s.config.valueWidth.bits →
      start.toNat + len.toNat ≤ 8 * s.store.len →
      ∃ (t : State) (x : Word), exec (.get start len) s = .next t ∧ s.CompletesOk t (some x) 0 ∧ s.sameS t ∧
        x.toNat < 2 ^ len.toNat ∧
        ∀ k, k < len.toNat → s.store.bitAt (start.toNat + k) = some (x.getLsbD (len.toNat - 1 - k)))

/-- 43_read_path.md R143: what GETC does, on every operand and every state that meets the invariants: GET's result, with
NEXT the advanced cursor, and the unadvanced one on every error. -/
def Obligations.GetcFollowsItsRule : Prop :=
  ∀ (c : Word) (len : LenField) (s : State), s.Inv →
    (s.fault = true → ∃ t, exec (.getc c len) s = .next t ∧ s.CompletesRefused t c) ∧
    (s.fault = false → (len.toNat = 0 ∨ s.config.valueWidth.bits < len.toNat) →
      ∃ t, exec (.getc c len) s = .next t ∧ s.CompletesFatal t 0x12#8 c) ∧
    (s.fault = false → 1 ≤ len.toNat → len.toNat ≤ s.config.valueWidth.bits →
      8 * s.store.len < c.toNat + len.toNat →
      ∃ t, exec (.getc c len) s = .next t ∧ s.CompletesRecoverable t 0x02#8 c) ∧
    (s.fault = false → 1 ≤ len.toNat → len.toNat ≤ s.config.valueWidth.bits →
      c.toNat + len.toNat ≤ 8 * s.store.len →
      ∃ (t : State) (x y : Word), exec (.getc c len) s = .next t ∧ s.CompletesOk t (some x) y ∧ s.sameS t ∧
        y.toNat = c.toNat + len.toNat ∧ x.toNat < 2 ^ len.toNat ∧
        ∀ k, k < len.toNat → s.store.bitAt (c.toNat + k) = some (x.getLsbD (len.toNat - 1 - k)))

/-- 43_read_path.md R144: what SIZEBITS does. -/
def Obligations.SizebitsFollowsItsRule : Prop :=
  ∀ s : State,
    (s.fault = true → ∃ t, exec .sizebits s = .next t ∧ s.CompletesRefused t 0) ∧
    (s.fault = false → ∃ t, exec .sizebits s = .next t ∧ s.CompletesOk t (some s.wcur) 0 ∧ s.sameS t)

/-- 43_read_path.md R140: `unpack` is the sum of the field's bits, each shifted to its place, and below `2 ^ len`; and it
is the inverse of `pack` on bits that were zero. -/
def Obligations.UnpackIsTheSumAndInvertsPack : Prop :=
  ∀ (m : Memory) (start len : Nat), start + len ≤ m.capacityBits →
    (∃ n, m.unpack start len = some n ∧ n < 2 ^ len ∧
      n = ((List.range len).map
        (fun i => ((m.bitAt (start + i)).getD false).toNat <<< (len - 1 - i))).sum) ∧
    (∀ (v : Word) (m' : Memory), v.toNat < 2 ^ len → (∀ i, i < len → m.bitAt (start + i) = some false) →
      Memory.pack v start len m = some m' → m'.unpack start len = some v.toNat)

/-- The byte-at-a-time algorithm of 43_read_path.md R141 gives the result of `unpack` (R140). -/
def Obligations.UnpackBytewiseEqualsUnpack : Prop :=
  ∀ (m : Memory) (start len : Nat), start + len ≤ m.capacityBits →
    m.unpackBytewise start len = m.unpack start len

/-- The two views of the store agree (20_memory.md R44): a GET of 8 bits at offset `8 * i` answers what RAWBYTE `i`
answers, and a GET of 16 bits there the two bytes, the lower index the more significant. -/
def Obligations.FieldAndByteViewsAgree : Prop :=
  ∀ (i : Nat) (s : State), s.fault = false → 8 * i + 16 < 2 ^ 64 →
    (i < s.store.len →
      ∃ t u, exec (.get (BitVec.ofNat 64 (8 * i)) 8) s = .next t ∧ exec (.rawbyte (BitVec.ofNat 64 i)) s = .next u ∧
        t.rsp = u.rsp) ∧
    (i + 1 < s.store.len → 16 ≤ s.config.valueWidth.bits →
      ∃ t a b, exec (.get (BitVec.ofNat 64 (8 * i)) 16) s = .next t ∧ s.store.read i = some a ∧
        s.store.read (i + 1) = some b ∧
        s.CompletesOk t (some (a.zeroExtend 64 <<< 8 ||| b.zeroExtend 64)) 0)

/-- 20_memory.md R48: a read that succeeds or fails recoverably leaves `S` unchanged and answers the same when repeated; one
that fails fatally changes the latch only. -/
def Obligations.ReadsHaveNoSideEffects : Prop :=
  ∀ (i : Instr) (s : State),
    i.opcode = .get ∨ i.opcode = .getc ∨ i.opcode = .rawbyte ∨ i.opcode = .sizebits ∨ i.opcode = .capbytes →
    ∃ t q, exec i s = .next t ∧ t.rsp = some q ∧ t.store = s.store ∧ t.wcur = s.wcur ∧
      (isFatalCode q.code = false → s.sameS t ∧ ∃ u, exec i t = .next u ∧ u.rsp = t.rsp)

/-- A buffer just made by NEW reads zero at every range within its capacity (43_read_path.md R145, 40_backing_store.md
R83). -/
def Obligations.FreshStoreReadsZero : Prop :=
  ∀ (size start : Word) (len : LenField) (s t : State),
    exec (.new size) s = .next t → t.rsp = some (okResponse s.fcode none 0) →
    1 ≤ len.toNat → len.toNat ≤ s.config.valueWidth.bits → start.toNat + len.toNat ≤ 8 * t.store.len →
    ∃ u, exec (.get start len) t = .next u ∧ u.rsp = some (okResponse s.fcode (some 0) 0)

/-- A field INSERTed over zero bits is read back by GET (43_read_path.md R140, 42_write_path.md R120). -/
def Obligations.InsertedFieldReadsBack : Prop :=
  ∀ (v start : Word) (len : LenField) (s t : State),
    (∀ p, start.toNat ≤ p → p < start.toNat + len.toNat → p < s.store.capacityBits → s.store.bitAt p = some false) →
    exec (.insert v start len) s = .next t → t.rsp = some (okResponse s.fcode (some (len.zeroExtend 64)) 0) →
    ∃ u, exec (.get start len) t = .next u ∧ u.rsp = some (okResponse s.fcode (some v) 0)

/-- 43_read_path.md R146: fields appended one after another, from a state whose bits at and above the cursor are zero, are
each read back at their cumulative offset. -/
def Obligations.AppendedFieldsReadBack : Prop :=
  ∀ (fields : List (Word × LenField)) (s t : State) (j : Nat) (v : Word) (len : LenField),
    s.Inv → s.fault = false →
    (∀ p, s.wcur.toNat ≤ p → p < s.store.capacityBits → s.store.bitAt p = some false) →
    (∀ f ∈ fields, 1 ≤ f.2.toNat ∧ f.2.toNat ≤ s.config.valueWidth.bits ∧ f.1.toNat < 2 ^ f.2.toNat) →
    appendAll fields s = some t → fields[j]? = some (v, len) →
    ∃ u, exec (.get (BitVec.ofNat 64 (fieldOffset s.wcur.toNat fields j)) len) t = .next u ∧
      u.rsp = some (okResponse s.fcode (some v) 0)

/-! ## Errors and the fault latch -/

/-- 60_exceptions.md R162: whatever request a recoverable error answers, nothing in `S` has changed. -/
def Obligations.RecoverableErrorsChangeNothing : Prop :=
  ∀ (r : Request) (s t : State) (q : Response), execRequest r s = .next t → t.rsp = some q →
    q.code = 0x01#8 ∨ q.code = 0x02#8 ∨ q.code = 0x03#8 →
    s.CompletesRecoverable t q.code (errorNext r)

/-- 60_exceptions.md R163: whatever request a fatal error answers, the latch holds its code and nothing else in `S` has
changed. -/
def Obligations.FatalErrorsLatchTheirCode : Prop :=
  ∀ (r : Request) (s t : State) (q : Response), execRequest r s = .next t → t.rsp = some q →
    isFatalCode q.code = true → s.fault = false ∧ s.CompletesFatal t q.code (errorNext r)

/-- 60_exceptions.md R164: in the faulted state every request, legal or not, completes with FAULTED and changes nothing in
`S`; and only reset leaves that state. -/
def Obligations.FaultedBlockRefusesUntilReset : Prop :=
  (∀ (r : Request) (s : State), s.fault = true → ∃ t, execRequest r s = .next t ∧ s.CompletesRefused t (errorNext r)) ∧
  (∀ s t : State, s.fault = true → step s = .next t → t.fault = false →
    s.rst = true ∨ ∃ rest, s.host = .driveReset true :: rest)

/-- The latch is set by a fatal error only, with the code the response carries, and cleared by reset only; the fault code
is written only where the latch is set, and by reset. Said of executing a request and of every step (10_state.md R24,
R25). -/
def Obligations.OnlyFatalErrorsSetTheLatch : Prop :=
  (∀ (r : Request) (s t : State), execRequest r s = .next t → s.fault = false → t.fault = true →
    ∃ q, t.rsp = some q ∧ isFatalCode q.code = true ∧ t.fcode = q.code) ∧
  (∀ s t : State, step s = .next t → s.fault = false → t.fault = true →
    ¬ s.resets ∧ ∃ r q, s.accepts r ∧ s.answers t q ∧ isFatalCode q.code = true ∧ t.fcode = q.code) ∧
  (∀ s t : State, step s = .next t → s.fault = true → t.fault = false → s.resets) ∧
  (∀ s t : State, step s = .next t → t.fcode ≠ s.fcode → s.resets ∨ s.fault = false ∧ t.fault = true)

/-- 30_encoding.md R68: a response without RVALID has RES 0; NEXT is 0 but for GETC, where it is the advanced cursor on
success and the unadvanced one on every error. -/
def Obligations.FieldsNotProducedAreZero : Prop :=
  ∀ (r : Request) (s : State), s.Inv → ∃ t q, execRequest r s = .next t ∧ t.rsp = some q ∧
    (q.rvalid = false → q.res = 0) ∧
    (∀ c len, decode r = .command (.getc c len) →
      (q.code = 0x00#8 → q.next.toNat = c.toNat + len.toNat) ∧ (q.code ≠ 0x00#8 → q.next = r.opb)) ∧
    ((¬ ∃ c len, decode r = .command (.getc c len)) → q.next = 0)

/-- The status word as a number: `CODE | RVALID << 8 | FAULT << 9 | FCODE << 16`, every other bit 0 (30_encoding.md R67,
95_test_vectors.md). -/
def Obligations.StatusWordLayout : Prop :=
  ∀ (code fcode : BitVec 8) (rvalid fault : Bool),
    (statusWord code rvalid fault fcode).toNat =
      code.toNat ||| rvalid.toNat <<< 8 ||| fault.toNat <<< 9 ||| fcode.toNat <<< 16

/-- 60_exceptions.md R165: the response to any request carries the code of the first condition that applies, in the order
of the rule; and RESIZE's two conditions never hold together. -/
def Obligations.FirstConditionIsReported : Prop :=
  (∀ (r : Request) (s : State), ∃ t q, execRequest r s = .next t ∧ t.rsp = some q ∧ q.code = firstCondition r s) ∧
  (∀ (n : Word) (s : State), s.Inv → ¬ (8 * n.toNat < s.wcur.toNat ∧ s.config.maxBytes < n.toNat))

/-! ## What may change what -/

/-- 40_backing_store.md R82: the store's length changes only by a successful INSERT or APPEND, which make it longer, by
RESIZE, by NEW and by reset. Said of executing a request and of every step. -/
def Obligations.LengthChangesOnlyByRule : Prop :=
  (∀ (r : Request) (s t : State), execRequest r s = .next t → t.store.len ≠ s.store.len →
    ∃ i q, decode r = .command i ∧ t.rsp = some q ∧ q.code = 0x00#8 ∧
      ((i.opcode = .insert ∨ i.opcode = .append) ∧ s.store.len < t.store.len ∨
        i.opcode = .resize ∨ i.opcode = .new)) ∧
  (∀ s t : State, step s = .next t → t.store.len ≠ s.store.len →
    s.resets ∨ ∃ r i q, s.accepts r ∧ decode r = .command i ∧ s.answers t q ∧ q.code = 0x00#8 ∧
      ((i.opcode = .insert ∨ i.opcode = .append) ∧ s.store.len < t.store.len ∨
        i.opcode = .resize ∨ i.opcode = .new))

/-- 10_state.md R23: among the commands only APPEND and NEW write the cursor; APPEND only increases it; INSERT, RESIZE,
reads and errors leave it. -/
def Obligations.CursorWrittenOnlyByAppendAndNew : Prop :=
  ∀ (r : Request) (s t : State), s.config.legal = true → execRequest r s = .next t → t.wcur ≠ s.wcur →
    ∃ i q, decode r = .command i ∧ t.rsp = some q ∧ q.code = 0x00#8 ∧
      (i.opcode = .append ∧ s.wcur.toNat < t.wcur.toNat ∨ i.opcode = .new ∧ t.wcur = 0)

/-! ## The arithmetic unit -/

/-- 20_memory.md R41: the bit at offset `p` is `(byte >> (7 - p mod 8)) & 1` of byte `p div 8`, for every offset within the
store and no other. -/
def Obligations.BitOffsetsAreMsbFirst : Prop :=
  ∀ (m : Memory) (p : Nat),
    (p < 8 * m.len → ∃ b, m.read (p / 8) = some b ∧
      m.bitAt p = some (decide ((b.toNat >>> (7 - p % 8)) &&& 1 = 1))) ∧
    (8 * m.len ≤ p → m.bitAt p = none)

/-- 41_bit_arithmetic.md R107: the shifted form of `extractBits`, and that it is the in-place form moved down. -/
def Obligations.ShiftedExtractIsInPlaceMovedDown : Prop :=
  ∀ v start quantity : Nat, v < 2 ^ 64 → start + quantity ≤ 64 →
    extractBitsShifted v start quantity = (v >>> start) &&& (2 ^ quantity - 1) ∧
    extractBitsShifted v start quantity = extractBitsInPlace v start quantity >>> start

/-- 41_bit_arithmetic.md R108: `mostSignificantSetBit` is the number of the highest one bit, 0 to 63, and the sentinel for
zero. -/
def Obligations.MostSignificantSetBitIsTheHighest : Prop :=
  mostSignificantSetBit 0 = none ∧
  ∀ v : Nat, v ≠ 0 → v < 2 ^ 64 →
    ∃ k, mostSignificantSetBit v = some k ∧ k ≤ 63 ∧ v.testBit k = true ∧ ∀ j, k < j → v.testBit j = false

/-- A field touches at most `(len + 6) div 8 + 1` bytes, and some offset needs that many (70_reset_and_hazards.md R201). -/
def Obligations.FieldTouchesBoundedBytes : Prop :=
  ∀ len : Nat, 1 ≤ len →
    (∀ start, bytesTouched start len ≤ (len + 6) / 8 + 1) ∧ ∃ start, bytesTouched start len = (len + 6) / 8 + 1

/-! ## What a step may change -/

/-- 10_state.md R27, over every step. A one bit goes back to 0 only where its byte is removed by reset, by a successful NEW
or by a successful RESIZE to a length at or below that byte; and a bit that was not one becomes one only as a one bit of
the field a successful INSERT or APPEND writes, so every byte is created zero (40_backing_store.md R81). -/
def Obligations.OneBitsComeAndGoByRule : Prop :=
  (∀ (s t : State) (p : Nat), step s = .next t → s.store.bitAt p = some true → t.store.bitAt p ≠ some true →
    s.resets ∨ ∃ r i q, s.accepts r ∧ decode r = .command i ∧ s.answers t q ∧ q.code = 0x00#8 ∧
      (i.opcode = .new ∨ ∃ n : Word, i = .resize n ∧ n.toNat < s.store.len ∧ n.toNat ≤ byteIndex p)) ∧
  (∀ (s t : State) (p : Nat), step s = .next t → s.store.bitAt p ≠ some true → t.store.bitAt p = some true →
    ¬ s.resets ∧ ∃ r i q, s.accepts r ∧ decode r = .command i ∧ s.answers t q ∧ q.code = 0x00#8 ∧
      ((∃ (v start : Word) (len : LenField), i = .insert v start len ∧ fieldBit v start.toNat len.toNat p = true) ∨
        ∃ (v : Word) (len : LenField), i = .append v len ∧ fieldBit v s.wcur.toNat len.toNat p = true))

/-- A step that neither resets the block nor accepts a request leaves `S`, the parameters and the level of `rst` as they
were (10_state.md R24, R32; 30_encoding.md R61; 70_reset_and_hazards.md R190). With `rst` at 0, `rsp_ready` raised on an
empty channel and `rst` driven to 0 do nothing but use up the host's action (for the first, log entry 7). That `rst` and `S`
stay while a request waits at the head of the host's list, whatever stands behind it, is the model's choice (log
entry 16). -/
def Obligations.OnlyRequestsAndResetChangeS : Prop :=
  ∀ s : State, ¬ s.resets →
    ((∀ r, ¬ s.accepts r) →
      ∃ t, step s = .next t ∧ s.sameS t ∧ t.config = s.config ∧ t.rst = s.rst) ∧
    (∀ rest, s.host = .takeResponse :: rest → s.rsp = none → step s = .next (s.withHost rest)) ∧
    (∀ rest, s.host = .driveReset false :: rest → step s = .next (s.withHost rest))
end

