-- ==== Sys2Proof/Laws/Arith.lean ====
section
/-! SUPPORT. What the arithmetic unit's functions say, in the terms `omega` and bitwise reasoning use. -/

namespace Sys2Proof.Machine

/-- The fit check is the bound of 41_bit_arithmetic.md R109. -/
theorem fits_iff (v len : Nat) : fits v len = true ↔ v < 2 ^ len := by
  unfold fits mostSignificantSetBit
  by_cases h : v = 0
  · simp [h]
  · simp only [h, if_false, decide_eq_true_eq]
    exact Nat.log2_lt h

theorem fits_eq_false_iff (v len : Nat) : fits v len = false ↔ 2 ^ len ≤ v := by
  rw [← Bool.not_eq_true, fits_iff, Nat.not_lt]

/-- `ceilBytes` holds its bits, and no byte fewer would (41_bit_arithmetic.md R104). -/
theorem ceilBytes_le_iff (n k : Nat) : ceilBytes n ≤ k ↔ n ≤ 8 * k := by
  unfold ceilBytes; omega

theorem le_ceilBytes (n : Nat) : n ≤ 8 * ceilBytes n := by
  unfold ceilBytes; omega

theorem bitInByte_lt (p : Nat) : bitInByte p < 8 := by
  unfold bitInByte; omega

/-- Two bit offsets of one byte with one bit number are one offset. -/
theorem bitOffset_ext {p q : Nat} (hb : byteIndex p = byteIndex q) (hi : bitInByte p = bitInByte q) : p = q := by
  unfold byteIndex at hb
  unfold bitInByte bitOffsetInByte at hi
  omega

/-- Every bit of every byte is at some offset. -/
theorem exists_offset (i k : Nat) (hk : k < 8) : ∃ p, byteIndex p = i ∧ bitInByte p = k := by
  refine ⟨8 * i + (7 - k), ?_, ?_⟩
  · unfold byteIndex; omega
  · unfold bitInByte bitOffsetInByte; omega

/-- What `writeCheck` answers, in the order of 60_exceptions.md R165. -/
theorem writeCheck_eq_none_iff (c : Config) (v start len : Nat) :
    writeCheck c v start len = none ↔ v < 2 ^ len ∧ ceilBytes (start + len) ≤ c.maxBytes := by
  unfold writeCheck
  rw [← fits_iff]
  split_ifs with h1 h2
  · simp [h1]
  · simp; omega
  · simp at h1; simp [h1]; omega

theorem lengthLegal_iff (c : Config) (len : Nat) :
    lengthLegal c len = true ↔ 1 ≤ len ∧ len ≤ c.valueWidth.bits := by
  simp [lengthLegal]

theorem valueWidth_bits_le (w : ValueWidth) : w.bits ≤ 64 := by
  cases w <;> decide

end Sys2Proof.Machine
end

