-- ==== Sys2Proof/Laws/Memory.lean ====
section
/-! SUPPORT. The byte store: read after write, the canonical form and that every operation keeps it, and that a store in
canonical form is determined by what its bytes read as. -/

namespace Sys2Proof.Machine

/-! ## Cells -/

theorem cellValue_setCell_ne (i j : Nat) (b : Byte) (h : j ≠ i) (l : List Host.Cell) :
    cellValue (setCell i b l) j = cellValue l j := by
  induction l with
  | nil => unfold setCell; split_ifs <;> simp [cellValue, h.symm]
  | cons c rest ih =>
    obtain ⟨a, x⟩ := c
    unfold setCell
    split_ifs with h1 h2 h3 h4
    · rfl
    · simp [cellValue, h.symm]
    · have : a ≠ j := by omega
      simp [cellValue, this]
    · have : a ≠ j := by omega
      simp [cellValue, this, h.symm]
    · simp only [cellValue, ih]

/-- A byte that is not the unlisted one reads back, whatever the order of the cells. -/
theorem cellValue_setCell_self (i : Nat) (b : Byte) (hb : b ≠ unlistedByte) (l : List Host.Cell) :
    cellValue (setCell i b l) i = b := by
  induction l with
  | nil => simp [setCell, cellValue, hb]
  | cons c rest ih =>
    obtain ⟨a, x⟩ := c
    unfold setCell
    split_ifs with h1 h2
    · simp [cellValue]
    · simp [cellValue]
    · rw [cellValue, if_neg (Ne.symm h2), ih]

theorem cellValue_eq_unlisted_of_lt {lo hi : Nat} {l : List Host.Cell} (h : cellsWf lo hi l = true) {i : Nat}
    (hi' : i < lo) : cellValue l i = unlistedByte := by
  induction l generalizing lo with
  | nil => rfl
  | cons c rest ih =>
    obtain ⟨a, x⟩ := c
    simp only [cellsWf, Bool.and_eq_true, decide_eq_true_eq] at h
    rw [cellValue, if_neg (by omega)]
    exact ih h.2 (by omega)

theorem cellValue_eq_unlisted_of_ge {lo hi : Nat} {l : List Host.Cell} (h : cellsWf lo hi l = true) {i : Nat}
    (hi' : hi ≤ i) : cellValue l i = unlistedByte := by
  induction l generalizing lo with
  | nil => rfl
  | cons c rest ih =>
    obtain ⟨a, x⟩ := c
    simp only [cellsWf, Bool.and_eq_true, decide_eq_true_eq] at h
    rw [cellValue, if_neg (by omega)]
    exact ih h.2

/-- In canonical form every byte reads back, the unlisted one too. -/
theorem cellValue_setCell_self_of_wf {lo hi : Nat} {l : List Host.Cell} (h : cellsWf lo hi l = true) (i : Nat)
    (b : Byte) : cellValue (setCell i b l) i = b := by
  by_cases hb : b = unlistedByte
  · subst hb
    induction l generalizing lo with
    | nil => simp [setCell, cellValue]
    | cons c rest ih =>
      obtain ⟨a, x⟩ := c
      simp only [cellsWf, Bool.and_eq_true, decide_eq_true_eq] at h
      simp only [setCell, if_true]
      split_ifs with h1 h2
      · rw [cellValue, if_neg (by omega)]
        exact cellValue_eq_unlisted_of_lt h.2 (by omega)
      · exact cellValue_eq_unlisted_of_lt h.2 (by omega)
      · rw [cellValue, if_neg (Ne.symm h2)]
        exact ih h.2
  · exact cellValue_setCell_self i b hb l

theorem cellsWf_mono {lo lo' hi : Nat} {l : List Host.Cell} (hlo : lo' ≤ lo) (h : cellsWf lo hi l = true) :
    cellsWf lo' hi l = true := by
  cases l with
  | nil => rfl
  | cons c rest =>
    obtain ⟨a, x⟩ := c
    simp only [cellsWf, Bool.and_eq_true, decide_eq_true_eq] at h ⊢
    exact ⟨⟨⟨by omega, h.1.1.2⟩, h.1.2⟩, h.2⟩

theorem cellsWf_setCell {lo hi i : Nat} {l : List Host.Cell} (b : Byte) (h : cellsWf lo hi l = true) (hl : lo ≤ i)
    (hi' : i < hi) : cellsWf lo hi (setCell i b l) = true := by
  induction l generalizing lo with
  | nil => unfold setCell; split_ifs <;> simp_all [cellsWf]
  | cons c rest ih =>
    obtain ⟨a, x⟩ := c
    have h' := h
    simp only [cellsWf, Bool.and_eq_true, decide_eq_true_eq] at h'
    unfold setCell
    split_ifs with h1 h2 h3 h4
    · exact h
    · simp only [cellsWf, Bool.and_eq_true, decide_eq_true_eq]
      exact ⟨⟨⟨hl, hi'⟩, h2⟩, ⟨⟨by omega, h'.1.1.2⟩, h'.1.2⟩, h'.2⟩
    · exact cellsWf_mono (by omega) h'.2
    · simp only [cellsWf, Bool.and_eq_true, decide_eq_true_eq]
      exact ⟨⟨⟨hl, hi'⟩, h4⟩, by rw [h3]; exact h'.2⟩
    · simp only [cellsWf, Bool.and_eq_true, decide_eq_true_eq]
      exact ⟨h'.1, ih h'.2 (by omega)⟩

/-- Cells in canonical form are determined by what they read as. -/
theorem cells_ext {lo hi : Nat} {l m : List Host.Cell} (hl : cellsWf lo hi l = true) (hm : cellsWf lo hi m = true)
    (h : ∀ i, cellValue l i = cellValue m i) : l = m := by
  induction l generalizing lo m with
  | nil =>
    cases m with
    | nil => rfl
    | cons d rest =>
      obtain ⟨a, x⟩ := d
      simp only [cellsWf, Bool.and_eq_true, decide_eq_true_eq] at hm
      exact absurd (by simpa [cellValue] using (h a).symm) hm.1.2
  | cons c rest ih =>
    obtain ⟨a, x⟩ := c
    have hl' := hl
    simp only [cellsWf, Bool.and_eq_true, decide_eq_true_eq] at hl'
    cases m with
    | nil => exact absurd (by simpa [cellValue] using h a) hl'.1.2
    | cons d rest' =>
      obtain ⟨b, y⟩ := d
      have hm' := hm
      simp only [cellsWf, Bool.and_eq_true, decide_eq_true_eq] at hm'
      have hab : a = b := by
        by_contra hne
        rcases Nat.lt_or_gt_of_ne hne with hlt | hlt
        · have e := h a
          rw [cellValue, if_pos rfl, cellValue, if_neg (by omega),
            cellValue_eq_unlisted_of_lt hm'.2 (by omega)] at e
          exact hl'.1.2 e
        · have e := h b
          rw [cellValue, if_neg (by omega), cellValue_eq_unlisted_of_lt hl'.2 (by omega), cellValue,
            if_pos rfl] at e
          exact hm'.1.2 e.symm
      subst hab
      have hxy : x = y := by simpa [cellValue] using h a
      subst hxy
      congr 1
      apply ih hl'.2 hm'.2
      intro i
      have e := h i
      by_cases hi' : a = i
      · rw [cellValue_eq_unlisted_of_lt hl'.2 (by omega), cellValue_eq_unlisted_of_lt hm'.2 (by omega)]
      · simpa [cellValue, hi'] using e

theorem cellValue_filter_lt (k i : Nat) (l : List Host.Cell) :
    cellValue (l.filter (fun c => decide (c.1 < k))) i = if i < k then cellValue l i else unlistedByte := by
  induction l with
  | nil => simp [cellValue]
  | cons c rest ih =>
    obtain ⟨a, x⟩ := c
    by_cases hak : a < k
    · rw [List.filter_cons_of_pos (by simpa using hak)]
      by_cases hai : a = i
      · subst hai; simp [cellValue, hak]
      · simp [cellValue, hai, ih]
    · rw [List.filter_cons_of_neg (by simpa using hak), ih]
      by_cases hai : a = i
      · subst hai; simp [hak]
      · simp [cellValue, hai]

theorem cellsWf_filter_lt {lo hi : Nat} {l : List Host.Cell} (k hi' : Nat) (hk : k ≤ hi') (h : cellsWf lo hi l = true) :
    cellsWf lo hi' (l.filter (fun c => decide (c.1 < k))) = true := by
  induction l generalizing lo with
  | nil => rfl
  | cons c rest ih =>
    obtain ⟨a, x⟩ := c
    simp only [cellsWf, Bool.and_eq_true, decide_eq_true_eq] at h
    by_cases hak : a < k
    · rw [List.filter_cons_of_pos (by simpa using hak)]
      simp only [cellsWf, Bool.and_eq_true, decide_eq_true_eq]
      exact ⟨⟨⟨h.1.1.1, by omega⟩, h.1.2⟩, ih h.2⟩
    · rw [List.filter_cons_of_neg (by simpa using hak)]
      exact cellsWf_mono (by omega) (ih h.2)

/-! ## Reading and writing a byte -/

theorem Memory.read_of_lt {m : Memory} {i : Nat} (h : i < m.len) : m.read i = some (cellValue m.cells i) :=
  if_pos h

theorem Memory.read_of_ge {m : Memory} {i : Nat} (h : m.len ≤ i) : m.read i = none :=
  if_neg (by omega)

theorem Memory.read_isSome (m : Memory) (i : Nat) : (m.read i).isSome = decide (i < m.len) := by
  unfold Memory.read; split_ifs with h <;> simp [h]

/-- Everything a write in range does. -/
theorem Memory.write_spec {m : Memory} {i : Nat} (b : Byte) (h : i < m.len) :
    ∃ m', m.write i b = some m' ∧ m'.len = m.len ∧ (∀ j, j ≠ i → m'.read j = m.read j) ∧
      (b ≠ unlistedByte ∨ m.wf = true → m'.read i = some b) ∧ (m.wf = true → m'.wf = true) := by
  refine ⟨_, if_pos h, rfl, ?_, ?_, ?_⟩
  · intro j hj
    simp [Memory.read, cellValue_setCell_ne i j b hj]
  · rintro (hb | hw)
    · simp [Memory.read, h, cellValue_setCell_self i b hb]
    · simp [Memory.read, h, cellValue_setCell_self_of_wf hw i b]
  · intro hw
    exact cellsWf_setCell b hw (Nat.zero_le i) h

theorem or_ne_zero {a b : Byte} (h : b ≠ 0#8) : a ||| b ≠ 0#8 := by
  intro e
  exact h (BitVec.or_eq_zero_iff.mp e).2

/-- Everything an OR into a byte in range does. -/
theorem Memory.orByte_spec {m : Memory} {i : Nat} (b : Byte) (h : i < m.len) :
    ∃ m', m.orByte i b = some m' ∧ m'.len = m.len ∧ (∀ j, j ≠ i → m'.read j = m.read j) ∧
      (b ≠ 0#8 ∨ m.wf = true → m'.read i = (m.read i).map (· ||| b)) ∧ (m.wf = true → m'.wf = true) := by
  obtain ⟨m', e, hl, hne, hself, hw⟩ := Memory.write_spec (m := m) (cellValue m.cells i ||| b) h
  refine ⟨m', ?_, hl, hne, ?_, hw⟩
  · rw [Memory.orByte, Memory.read_of_lt h, Option.bind_some, e]
  · intro hb
    rw [Memory.read_of_lt h, Option.map_some]
    exact hself (hb.imp_left or_ne_zero)

/-- A store in canonical form is determined by its length and what its bytes read as. -/
theorem Memory.ext_of_read {m n : Memory} (hm : m.wf = true) (hn : n.wf = true) (hl : m.len = n.len)
    (h : ∀ i, m.read i = n.read i) : m = n := by
  obtain ⟨ml, mc⟩ := m
  obtain ⟨nl, nc⟩ := n
  simp only at hl
  subst hl
  congr 1
  refine cells_ext hm hn ?_
  intro i
  by_cases hi : i < ml
  · simpa [Memory.read, hi] using h i
  · have hge : ml ≤ i := Nat.le_of_not_lt hi
    exact (cellValue_eq_unlisted_of_ge hm hge).trans (cellValue_eq_unlisted_of_ge hn hge).symm

/-! ## The length of the store -/

@[simp] theorem Memory.setLen_len (m : Memory) (n : Nat) : (m.setLen n).len = n := rfl

/-- Kept bytes as they were, added bytes zero (40_backing_store.md R81, R84). -/
theorem Memory.setLen_read (m : Memory) (n i : Nat) :
    (m.setLen n).read i = if i < n then some (if i < m.len then cellValue m.cells i else 0#8) else none := by
  unfold Memory.read
  simp only [Memory.setLen_len]
  by_cases h : i < n
  · simp only [h, if_true, Memory.setLen]
    rw [cellValue_filter_lt]
    simp only [Nat.lt_min, h, and_true]
    rfl
  · simp [h]

theorem Memory.setLen_wf {m : Memory} (n : Nat) (h : m.wf = true) : (m.setLen n).wf = true :=
  cellsWf_filter_lt (min m.len n) n (Nat.min_le_right ..) h

theorem Memory.zeros_wf (n : Nat) : (Memory.zeros n).wf = true := rfl

theorem Memory.zeros_read (n i : Nat) : (Memory.zeros n).read i = if i < n then some 0#8 else none := rfl

/-- The length after growth (40_backing_store.md R80, 42_write_path.md R124). -/
theorem Memory.ensureCapacity_len (m : Memory) (bits : Nat) :
    (m.ensureCapacity bits).len = max m.len (ceilBytes bits) := by
  unfold Memory.ensureCapacity Memory.capacityBits
  split_ifs with h
  · have : ¬ ceilBytes bits ≤ m.len := by rw [ceilBytes_le_iff]; omega
    rw [Memory.setLen_len]; omega
  · have := (ceilBytes_le_iff bits m.len).mpr (by omega)
    omega

theorem Memory.ensureCapacity_wf {m : Memory} (bits : Nat) (h : m.wf = true) : (m.ensureCapacity bits).wf = true := by
  unfold Memory.ensureCapacity
  split_ifs
  · exact Memory.setLen_wf _ h
  · exact h

/-- Growth keeps every byte and adds zero bytes (40_backing_store.md R80, R81). -/
theorem Memory.ensureCapacity_read (m : Memory) (bits i : Nat) :
    (m.ensureCapacity bits).read i =
      if i < m.len then m.read i else if i < ceilBytes bits then some 0#8 else none := by
  unfold Memory.ensureCapacity
  split_ifs with h h1 h2 h2
  · have hb : ¬ ceilBytes bits ≤ m.len := by
      rw [ceilBytes_le_iff]; unfold Memory.capacityBits at h; omega
    rw [Memory.setLen_read, if_pos (by omega), if_pos h1, Memory.read_of_lt h1]
  · rw [Memory.setLen_read, if_pos h2, if_neg h1]
  · rw [Memory.setLen_read, if_neg h2]
  · rfl
  · have hb := (ceilBytes_le_iff bits m.len).mpr (by unfold Memory.capacityBits at h; omega)
    omega
  · exact Memory.read_of_ge (by omega)

/-! ## Bits -/

theorem Memory.bitAt_isSome (m : Memory) (p : Nat) : (m.bitAt p).isSome = decide (p < m.capacityBits) := by
  unfold Memory.bitAt
  rw [Option.isSome_map, Memory.read_isSome]
  unfold byteIndex Memory.capacityBits
  congr 1
  apply propext
  omega

/-- Two stores whose bits agree have bytes that agree. -/
theorem Memory.read_ext_of_bitAt {m n : Memory} (hl : m.len = n.len) (h : ∀ p, m.bitAt p = n.bitAt p) (i : Nat) :
    m.read i = n.read i := by
  by_cases hi : i < m.len
  · rw [Memory.read_of_lt hi, Memory.read_of_lt (hl ▸ hi)]
    congr 1
    apply BitVec.eq_of_getLsbD_eq
    intro k hk
    obtain ⟨p, hp, hk'⟩ := exists_offset i k hk
    have e := h p
    simpa [Memory.bitAt, hp, hk', Memory.read_of_lt hi, Memory.read_of_lt (hl ▸ hi)] using e
  · rw [Memory.read_of_ge (by omega), Memory.read_of_ge (by omega)]

end Sys2Proof.Machine
end

