-- ==== Sys2Proof/Laws/Engines.lean ====
section
/-! SUPPORT. Everything the pack and unpack engines do, said bit by bit (42_write_path.md R120, R122;
43_read_path.md R140). -/

namespace Sys2Proof.Machine

/-- The byte with the one bit of offset `p` set. -/
theorem bitByte_getLsbD {p k : Nat} (hk : k < 8) : (1#8 <<< bitInByte p).getLsbD k = decide (k = bitInByte p) := by
  have h := bitInByte_lt p
  revert hk h
  generalize bitInByte p = b
  intro hk h
  interval_cases b <;> interval_cases k <;> decide

theorem bitByte_ne_zero (p : Nat) : 1#8 <<< bitInByte p ≠ 0#8 := by
  intro e
  have := bitByte_getLsbD (p := p) (bitInByte_lt p)
  rw [e] at this
  simp at this

/-- Setting the bit of one offset: that bit, and no other. -/
theorem Memory.orBit_spec {m : Memory} {p : Nat} (h : p < m.capacityBits) :
    ∃ m', m.orByte (byteIndex p) (1#8 <<< bitInByte p) = some m' ∧ m'.len = m.len ∧
      (∀ q, m'.bitAt q = (m.bitAt q).map (· || decide (q = p))) ∧
      (∀ i, i ≠ byteIndex p → m'.read i = m.read i) ∧ (m.wf = true → m'.wf = true) := by
  have hi : byteIndex p < m.len := by
    unfold byteIndex; unfold Memory.capacityBits at h; omega
  obtain ⟨m', e, hl, hne, hself, hw⟩ := Memory.orByte_spec (m := m) (1#8 <<< bitInByte p) hi
  refine ⟨m', e, hl, ?_, hne, hw⟩
  intro q
  have hq := hself (Or.inl (bitByte_ne_zero p))
  unfold Memory.bitAt
  by_cases hb : byteIndex q = byteIndex p
  · rw [hb, hq, Memory.read_of_lt hi]
    simp only [Option.map_some, BitVec.getLsbD_or, bitByte_getLsbD (bitInByte_lt q)]
    congr 2
    rw [decide_eq_decide]
    exact ⟨fun hk => bitOffset_ext hb hk, fun hk => by rw [hk]⟩
  · have hqp : q ≠ p := fun hk => hb (by rw [hk])
    rw [hne _ hb]
    simp only [hqp, decide_false, Bool.or_false, Option.map_id']

theorem fieldBit_zero (v : Word) (start p : Nat) : fieldBit v start 0 p = false := by
  simp [fieldBit]

/-- A field of one bit more: its first bit at `start`, the rest behind it. -/
theorem fieldBit_succ (v : Word) (start len p : Nat) :
    fieldBit v start (len + 1) p = ((decide (p = start) && v.getLsbD len) || fieldBit v (start + 1) len p) := by
  unfold fieldBit
  by_cases h1 : p = start
  · subst h1
    simp
  · by_cases h2 : start + 1 ≤ p
    · have e : len - (p - start) = len - 1 - (p - (start + 1)) := by omega
      have e2 : (p < start + (len + 1)) = (p < start + 1 + len) := by apply propext; omega
      simp [h1, h2, e, e2, Nat.le_of_lt h2]
    · have : ¬ start ≤ p := by omega
      simp [h1, h2, this]

/-- Everything `pack` does where the field lies within the store: it answers a store of the same length in which the
field's one bits are set and every other bit is as it was; bytes outside the field's bytes are untouched. -/
theorem Memory.pack_spec (v : Word) (start len : Nat) (m : Memory) (h : start + len ≤ m.capacityBits) :
    ∃ m', Memory.pack v start len m = some m' ∧ m'.len = m.len ∧
      (∀ p, m'.bitAt p = (m.bitAt p).map (· || fieldBit v start len p)) ∧
      (∀ i, i < byteIndex start ∨ byteIndex (start + len - 1) < i → m'.read i = m.read i) ∧
      (m.wf = true → m'.wf = true) := by
  induction len generalizing start m with
  | zero =>
    refine ⟨m, rfl, rfl, ?_, fun _ _ => rfl, id⟩
    intro p
    cases m.bitAt p <;> simp [fieldBit_zero]
  | succ len ih =>
    have hrest : ∀ m1 : Memory, m1.len = m.len → start + 1 + len ≤ m1.capacityBits := by
      intro m1 hl
      unfold Memory.capacityBits at h ⊢
      omega
    by_cases hb : v.getLsbD len = true
    · obtain ⟨m1, e1, hl1, hbit1, hbyte1, hw1⟩ := Memory.orBit_spec (m := m) (p := start) (by omega)
      obtain ⟨m2, e2, hl2, hbit2, hbyte2, hw2⟩ := ih (start + 1) m1 (hrest m1 hl1)
      refine ⟨m2, ?_, hl2.trans hl1, ?_, ?_, fun hw => hw2 (hw1 hw)⟩
      · rw [Memory.pack, if_pos hb, e1, Option.bind_some, e2]
      · intro p
        rw [hbit2, hbit1, fieldBit_succ, hb, Option.map_map]
        congr 1
        funext b
        simp [Bool.or_assoc]
      · intro i hi
        unfold byteIndex at hi hbyte1 hbyte2
        rw [hbyte2 i (by omega), hbyte1 i (by omega)]
    · obtain ⟨m2, e2, hl2, hbit2, hbyte2, hw2⟩ := ih (start + 1) m (hrest m rfl)
      refine ⟨m2, ?_, hl2, ?_, ?_, hw2⟩
      · rw [Memory.pack, if_neg hb, Option.bind_some, e2]
      · intro p
        rw [hbit2, fieldBit_succ, Bool.eq_false_of_not_eq_true hb]
        simp
      · intro i hi
        unfold byteIndex at hi hbyte2
        exact hbyte2 i (by omega)

/-- Everything `unpack` does where the field lies within the store: it answers a number below `2 ^ len` whose bit
`len - 1 - i` is the bit at offset `start + i`. -/
theorem Memory.unpack_spec (m : Memory) (start len : Nat) (h : start + len ≤ m.capacityBits) :
    ∃ n, m.unpack start len = some n ∧ n < 2 ^ len ∧
      (∀ i, i < len → m.bitAt (start + i) = some (n.testBit (len - 1 - i))) := by
  induction len generalizing start with
  | zero => exact ⟨0, rfl, by simp, fun i hi => absurd hi (Nat.not_lt_zero i)⟩
  | succ len ih =>
    obtain ⟨r, er, hr, hbits⟩ := ih (start + 1) (by omega)
    have hs : (m.bitAt start).isSome = true := by
      rw [Memory.bitAt_isSome]; simp; omega
    obtain ⟨b, eb⟩ := Option.isSome_iff_exists.mp hs
    refine ⟨b.toNat <<< len + r, by rw [Memory.unpack, eb, er]; rfl, ?_, ?_⟩
    · rw [Nat.shiftLeft_eq, Nat.pow_succ]
      cases b <;> simp <;> omega
    · intro i hi
      rw [Nat.shiftLeft_eq, Nat.mul_comm]
      cases i with
      | zero =>
        rw [Nat.add_zero, eb, Nat.testBit_two_pow_mul_add _ hr]
        cases b <;> simp
      | succ i =>
        have e : start + (i + 1) = start + 1 + i := by omega
        have e2 : len + 1 - 1 - (i + 1) = len - 1 - i := by omega
        rw [e, hbits i (by omega), Nat.testBit_two_pow_mul_add _ hr, if_pos (by omega), e2]

/-- A number below `2 ^ len` that agrees with the store on every bit of a field is that field. -/
theorem Memory.unpack_eq_of_bits {m : Memory} {start len n : Nat} (h : start + len ≤ m.capacityBits) (hn : n < 2 ^ len)
    (hbits : ∀ i, i < len → m.bitAt (start + i) = some (n.testBit (len - 1 - i))) : m.unpack start len = some n := by
  obtain ⟨r, er, hr, hrb⟩ := Memory.unpack_spec m start len h
  rw [er]
  congr 1
  apply Nat.eq_of_testBit_eq
  intro k
  by_cases hk : k < len
  · have e := (hbits (len - 1 - k) (by omega)).symm.trans (hrb (len - 1 - k) (by omega))
    have ek : len - 1 - (len - 1 - k) = k := by omega
    rw [ek] at e
    exact (Option.some.inj e).symm
  · rw [Nat.testBit_lt_two_pow (Nat.lt_of_lt_of_le hr (Nat.pow_le_pow_right (by omega) (by omega))),
      Nat.testBit_lt_two_pow (Nat.lt_of_lt_of_le hn (Nat.pow_le_pow_right (by omega) (by omega)))]

end Sys2Proof.Machine
end

