-- ==== Sys2Proof/Laws/Flags.lean ====
section
/-! SUPPORT. The fields of a status word read back (30_encoding.md R67), and what codes the machine's errors have. -/

namespace Sys2Proof.Machine

variable (c : BitVec 8) (v f : Bool) (k : BitVec 8)

/-- Every bit of a status word: CODE in 7:0, RVALID in 8, FAULT in 9, FCODE in 23:16, 0 elsewhere. -/
theorem statusWord_getLsbD (i : Nat) : (statusWord c v f k).getLsbD i =
    if i < 8 then c.getLsbD i else if i = 8 then v else if i = 9 then f
    else if 16 ≤ i then k.getLsbD (i - 16) else false := by
  unfold statusWord
  refine (BitVec.getLsbD_append ..).trans ?_
  simp only [BitVec.getLsbD_append, BitVec.getLsbD_zero, BitVec.getLsbD_ofBool]
  split_ifs <;> first | rfl | omega | simp_all
  exact BitVec.getLsbD_of_ge k _ (by omega)

@[simp] theorem statusWord_code : (statusWord c v f k).extractLsb' 0 8 = c := by
  apply BitVec.eq_of_getLsbD_eq
  intro i hi
  rw [BitVec.getLsbD_extractLsb', statusWord_getLsbD, Nat.zero_add, if_pos hi]
  simp [hi]

@[simp] theorem statusWord_reservedLow : (statusWord c v f k).extractLsb' 10 6 = 0#6 := by
  apply BitVec.eq_of_getLsbD_eq
  intro i hi
  rw [BitVec.getLsbD_extractLsb', statusWord_getLsbD, if_neg (by omega), if_neg (by omega), if_neg (by omega),
    if_neg (by omega)]
  simp

@[simp] theorem statusWord_fcode : (statusWord c v f k).extractLsb' 16 8 = k := by
  apply BitVec.eq_of_getLsbD_eq
  intro i hi
  rw [BitVec.getLsbD_extractLsb', statusWord_getLsbD, if_neg (by omega), if_neg (by omega), if_neg (by omega),
    if_pos (by omega), Nat.add_sub_cancel_left]
  simp [hi]

@[simp] theorem statusWord_reservedHigh : (statusWord c v f k).extractLsb' 24 8 = 0#8 := by
  apply BitVec.eq_of_getLsbD_eq
  intro i hi
  rw [BitVec.getLsbD_extractLsb', statusWord_getLsbD, if_neg (by omega), if_neg (by omega), if_neg (by omega),
    if_pos (by omega), BitVec.getLsbD_of_ge k _ (by omega)]
  simp

/-- The flag bits, in the form `simp` gives a bit at a known place. -/
@[simp] theorem statusWord_rvalid : (statusWord c v f k)[8] = v := statusWord_getLsbD c v f k 8

@[simp] theorem statusWord_fault : (statusWord c v f k)[9] = f := statusWord_getLsbD c v f k 9

theorem isStatusCode_bits (c : StatusCode) : isStatusCode c.bits = true := by
  rcases c with _ | (e | e) | _
  · decide
  · cases e <;> decide
  · cases e <;> decide
  · decide

theorem isFatalCode_bits (e : FatalError) : isFatalCode e.bits = true := by
  cases e <;> decide

/-- Whatever `respond` puts on the channel is a proper response, if only a success carries a result. -/
theorem State.respond_proper (s : State) (c : StatusCode) (r : Option Word) (n : Word) (h : r.isSome = true → c = .ok) :
    ∃ q, (s.respond c r n).rsp = some q ∧ q.proper = true := by
  refine ⟨_, rfl, ?_⟩
  cases r with
  | none => simp [Response.proper, Response.code, Response.reservedLow, Response.reservedHigh, Response.rvalid,
      isStatusCode_bits]
  | some w =>
    simp only [Option.isSome_some, forall_const] at h
    subst h
    simp [Response.proper, Response.code, Response.reservedLow, Response.reservedHigh, Response.rvalid,
      isStatusCode, StatusCode.bits]

end Sys2Proof.Machine
end

