-- ==== Sys2Proof/Laws/State.lean ====
section
/-! SUPPORT. One lemma per field per update of the state, so that no proof unfolds a record update. -/

namespace Sys2Proof.Machine

variable (s : State)

/-! ## withStore -/

@[simp] theorem State.withStore_config (m : Memory) : (s.withStore m).config = s.config := rfl
@[simp] theorem State.withStore_store (m : Memory) : (s.withStore m).store = m := rfl
@[simp] theorem State.withStore_wcur (m : Memory) : (s.withStore m).wcur = s.wcur := rfl
@[simp] theorem State.withStore_fault (m : Memory) : (s.withStore m).fault = s.fault := rfl
@[simp] theorem State.withStore_fcode (m : Memory) : (s.withStore m).fcode = s.fcode := rfl
@[simp] theorem State.withStore_rsp (m : Memory) : (s.withStore m).rsp = s.rsp := rfl
@[simp] theorem State.withStore_rst (m : Memory) : (s.withStore m).rst = s.rst := rfl
@[simp] theorem State.withStore_host (m : Memory) : (s.withStore m).host = s.host := rfl
@[simp] theorem State.withStore_responses (m : Memory) : (s.withStore m).responses = s.responses := rfl

/-! ## withWcur -/

@[simp] theorem State.withWcur_config (w : Word) : (s.withWcur w).config = s.config := rfl
@[simp] theorem State.withWcur_store (w : Word) : (s.withWcur w).store = s.store := rfl
@[simp] theorem State.withWcur_wcur (w : Word) : (s.withWcur w).wcur = w := rfl
@[simp] theorem State.withWcur_fault (w : Word) : (s.withWcur w).fault = s.fault := rfl
@[simp] theorem State.withWcur_fcode (w : Word) : (s.withWcur w).fcode = s.fcode := rfl
@[simp] theorem State.withWcur_rsp (w : Word) : (s.withWcur w).rsp = s.rsp := rfl
@[simp] theorem State.withWcur_rst (w : Word) : (s.withWcur w).rst = s.rst := rfl
@[simp] theorem State.withWcur_host (w : Word) : (s.withWcur w).host = s.host := rfl
@[simp] theorem State.withWcur_responses (w : Word) : (s.withWcur w).responses = s.responses := rfl

/-! ## latchFault -/

@[simp] theorem State.latchFault_config (e : FatalError) : (s.latchFault e).config = s.config := rfl
@[simp] theorem State.latchFault_store (e : FatalError) : (s.latchFault e).store = s.store := rfl
@[simp] theorem State.latchFault_wcur (e : FatalError) : (s.latchFault e).wcur = s.wcur := rfl
@[simp] theorem State.latchFault_fault (e : FatalError) : (s.latchFault e).fault = true := rfl
@[simp] theorem State.latchFault_fcode (e : FatalError) : (s.latchFault e).fcode = e.bits := rfl
@[simp] theorem State.latchFault_rsp (e : FatalError) : (s.latchFault e).rsp = s.rsp := rfl
@[simp] theorem State.latchFault_rst (e : FatalError) : (s.latchFault e).rst = s.rst := rfl
@[simp] theorem State.latchFault_host (e : FatalError) : (s.latchFault e).host = s.host := rfl
@[simp] theorem State.latchFault_responses (e : FatalError) : (s.latchFault e).responses = s.responses := rfl

/-! ## respond -/

@[simp] theorem State.respond_config (c : StatusCode) (v : Option Word) (n : Word)
    : (s.respond c v n).config = s.config :=
  rfl
@[simp] theorem State.respond_store (c : StatusCode) (v : Option Word) (n : Word)
    : (s.respond c v n).store = s.store :=
  rfl
@[simp] theorem State.respond_wcur (c : StatusCode) (v : Option Word) (n : Word)
    : (s.respond c v n).wcur = s.wcur :=
  rfl
@[simp] theorem State.respond_fault (c : StatusCode) (v : Option Word) (n : Word)
    : (s.respond c v n).fault = s.fault :=
  rfl
@[simp] theorem State.respond_fcode (c : StatusCode) (v : Option Word) (n : Word)
    : (s.respond c v n).fcode = s.fcode :=
  rfl
@[simp] theorem State.respond_rsp (c : StatusCode) (v : Option Word) (n : Word)
    : (s.respond c v n).rsp = some { status := statusWord c.bits v.isSome s.fault s.fcode, res := v.getD 0, next := n } :=
  rfl
@[simp] theorem State.respond_rst (c : StatusCode) (v : Option Word) (n : Word) : (s.respond c v n).rst = s.rst := rfl
@[simp] theorem State.respond_host (c : StatusCode) (v : Option Word) (n : Word)
    : (s.respond c v n).host = s.host :=
  rfl
@[simp] theorem State.respond_responses (c : StatusCode) (v : Option Word) (n : Word)
    : (s.respond c v n).responses = s.responses :=
  rfl

/-! ## refuseFaulted -/

@[simp] theorem State.refuseFaulted_config (n : Word) : (s.refuseFaulted n).config = s.config := rfl
@[simp] theorem State.refuseFaulted_store (n : Word) : (s.refuseFaulted n).store = s.store := rfl
@[simp] theorem State.refuseFaulted_wcur (n : Word) : (s.refuseFaulted n).wcur = s.wcur := rfl
@[simp] theorem State.refuseFaulted_fault (n : Word) : (s.refuseFaulted n).fault = s.fault := rfl
@[simp] theorem State.refuseFaulted_fcode (n : Word) : (s.refuseFaulted n).fcode = s.fcode := rfl
@[simp] theorem State.refuseFaulted_rsp (n : Word)
    : (s.refuseFaulted n).rsp = some { status := statusWord 0x1F#8 false s.fault s.fcode, res := 0, next := n } :=
  rfl
@[simp] theorem State.refuseFaulted_rst (n : Word) : (s.refuseFaulted n).rst = s.rst := rfl
@[simp] theorem State.refuseFaulted_host (n : Word) : (s.refuseFaulted n).host = s.host := rfl
@[simp] theorem State.refuseFaulted_responses (n : Word) : (s.refuseFaulted n).responses = s.responses := rfl

/-! ## withHost -/

@[simp] theorem State.withHost_config (h : List HostEvent) : (s.withHost h).config = s.config := rfl
@[simp] theorem State.withHost_store (h : List HostEvent) : (s.withHost h).store = s.store := rfl
@[simp] theorem State.withHost_wcur (h : List HostEvent) : (s.withHost h).wcur = s.wcur := rfl
@[simp] theorem State.withHost_fault (h : List HostEvent) : (s.withHost h).fault = s.fault := rfl
@[simp] theorem State.withHost_fcode (h : List HostEvent) : (s.withHost h).fcode = s.fcode := rfl
@[simp] theorem State.withHost_rsp (h : List HostEvent) : (s.withHost h).rsp = s.rsp := rfl
@[simp] theorem State.withHost_rst (h : List HostEvent) : (s.withHost h).rst = s.rst := rfl
@[simp] theorem State.withHost_host (h : List HostEvent) : (s.withHost h).host = h := rfl
@[simp] theorem State.withHost_responses (h : List HostEvent) : (s.withHost h).responses = s.responses := rfl

/-! ## withRst -/

@[simp] theorem State.withRst_config (b : Bool) : (s.withRst b).config = s.config := rfl
@[simp] theorem State.withRst_store (b : Bool) : (s.withRst b).store = s.store := rfl
@[simp] theorem State.withRst_wcur (b : Bool) : (s.withRst b).wcur = s.wcur := rfl
@[simp] theorem State.withRst_fault (b : Bool) : (s.withRst b).fault = s.fault := rfl
@[simp] theorem State.withRst_fcode (b : Bool) : (s.withRst b).fcode = s.fcode := rfl
@[simp] theorem State.withRst_rsp (b : Bool) : (s.withRst b).rsp = s.rsp := rfl
@[simp] theorem State.withRst_rst (b : Bool) : (s.withRst b).rst = b := rfl
@[simp] theorem State.withRst_host (b : Bool) : (s.withRst b).host = s.host := rfl
@[simp] theorem State.withRst_responses (b : Bool) : (s.withRst b).responses = s.responses := rfl

/-! ## present -/

@[simp] theorem State.present_config (r : Request) : (s.present r).config = s.config := rfl
@[simp] theorem State.present_store (r : Request) : (s.present r).store = s.store := rfl
@[simp] theorem State.present_wcur (r : Request) : (s.present r).wcur = s.wcur := rfl
@[simp] theorem State.present_fault (r : Request) : (s.present r).fault = s.fault := rfl
@[simp] theorem State.present_fcode (r : Request) : (s.present r).fcode = s.fcode := rfl
@[simp] theorem State.present_rsp (r : Request) : (s.present r).rsp = none := rfl
@[simp] theorem State.present_rst (r : Request) : (s.present r).rst = false := rfl
@[simp] theorem State.present_host (r : Request) : (s.present r).host = .request r true :: s.host := rfl
@[simp] theorem State.present_responses (r : Request) : (s.present r).responses = s.responses := rfl

/-! ## applyReset -/

@[simp] theorem State.applyReset_config : (s.applyReset).config = s.config := rfl
@[simp] theorem State.applyReset_store : (s.applyReset).store = { len := 0, cells := [] } := rfl
@[simp] theorem State.applyReset_wcur : (s.applyReset).wcur = 0 := rfl
@[simp] theorem State.applyReset_fault : (s.applyReset).fault = false := rfl
@[simp] theorem State.applyReset_fcode : (s.applyReset).fcode = 0 := rfl
@[simp] theorem State.applyReset_rsp : (s.applyReset).rsp = none := rfl
@[simp] theorem State.applyReset_rst : (s.applyReset).rst = s.rst := rfl
@[simp] theorem State.applyReset_host : (s.applyReset).host = s.host := rfl
@[simp] theorem State.applyReset_responses : (s.applyReset).responses = [] := rfl

/-! ## raise and deliver -/

@[simp] theorem State.raise_config (e : CommandError) (n : Word) : (s.raise e n).config = s.config := by
  cases e <;> rfl
@[simp] theorem State.raise_store (e : CommandError) (n : Word) : (s.raise e n).store = s.store := by
  cases e <;> rfl
@[simp] theorem State.raise_wcur (e : CommandError) (n : Word) : (s.raise e n).wcur = s.wcur := by
  cases e <;> rfl
@[simp] theorem State.raise_rst (e : CommandError) (n : Word) : (s.raise e n).rst = s.rst := by
  cases e <;> rfl
@[simp] theorem State.raise_host (e : CommandError) (n : Word) : (s.raise e n).host = s.host := by
  cases e <;> rfl
@[simp] theorem State.raise_responses (e : CommandError) (n : Word) : (s.raise e n).responses = s.responses := by
  cases e <;> rfl

@[simp] theorem State.raise_recoverable_fault (e : RecoverableError) (n : Word) :
    (s.raise (.recoverable e) n).fault = s.fault := rfl
@[simp] theorem State.raise_recoverable_fcode (e : RecoverableError) (n : Word) :
    (s.raise (.recoverable e) n).fcode = s.fcode := rfl
@[simp] theorem State.raise_recoverable_rsp (e : RecoverableError) (n : Word) :
    (s.raise (.recoverable e) n).rsp =
      some { status := statusWord e.bits false s.fault s.fcode, res := 0, next := n } := rfl
@[simp] theorem State.raise_fatal_fault (e : FatalError) (n : Word) : (s.raise (.fatal e) n).fault = true := rfl
@[simp] theorem State.raise_fatal_fcode (e : FatalError) (n : Word) : (s.raise (.fatal e) n).fcode = e.bits := rfl
@[simp] theorem State.raise_fatal_rsp (e : FatalError) (n : Word) :
    (s.raise (.fatal e) n).rsp =
      some { status := statusWord e.bits false true e.bits, res := 0, next := n } := rfl

@[simp] theorem State.deliver_config : s.deliver.config = s.config := by
  unfold State.deliver; split <;> rfl
@[simp] theorem State.deliver_store : s.deliver.store = s.store := by
  unfold State.deliver; split <;> rfl
@[simp] theorem State.deliver_wcur : s.deliver.wcur = s.wcur := by
  unfold State.deliver; split <;> rfl
@[simp] theorem State.deliver_fault : s.deliver.fault = s.fault := by
  unfold State.deliver; split <;> rfl
@[simp] theorem State.deliver_fcode : s.deliver.fcode = s.fcode := by
  unfold State.deliver; split <;> rfl
@[simp] theorem State.deliver_rst : s.deliver.rst = s.rst := by
  unfold State.deliver; split <;> rfl
@[simp] theorem State.deliver_host : s.deliver.host = s.host := by
  unfold State.deliver; split <;> rfl

@[simp] theorem State.deliver_rsp : s.deliver.rsp = none := by
  unfold State.deliver
  split <;> simp_all
@[simp] theorem State.deliver_responses : s.deliver.responses = s.responses ++ s.rsp.toList := by
  unfold State.deliver
  split <;> simp_all

end Sys2Proof.Machine
end

