-- ==== Sys2Proof/Laws/Commands.lean ====
section
/-! SUPPORT. One lemma per shared operation of the commands, saying everything it can do: the guards, the write and the
read of a field, an illegal word, a transaction. -/

namespace Sys2Proof.Machine

/-! ## The guards -/

theorem unlessFaulted_of_fault {s : State} (h : s.fault = true) (next : Word) (run : Result) :
    unlessFaulted s next run = .next (s.refuseFaulted next) := if_pos h

theorem unlessFaulted_of_clear {s : State} (h : s.fault = false) (next : Word) (run : Result) :
    unlessFaulted s next run = run := if_neg (by simp [h])

theorem withLength_of_fault {s : State} (h : s.fault = true) (len : LenField) (next : Word) (run : Result) :
    withLength s len next run = .next (s.refuseFaulted next) := unlessFaulted_of_fault h ..

theorem withLength_of_bad {s : State} (h : s.fault = false) {len : LenField}
    (hl : ¬ (1 ≤ len.toNat ∧ len.toNat ≤ s.config.valueWidth.bits)) (next : Word) (run : Result) :
    withLength s len next run = .next (s.raise (.fatal .badLength) next) := by
  rw [withLength, unlessFaulted_of_clear h, if_neg (by rwa [lengthLegal_iff])]

theorem withLength_of_legal {s : State} (h : s.fault = false) {len : LenField} (h1 : 1 ≤ len.toNat)
    (hW : len.toNat ≤ s.config.valueWidth.bits) (next : Word) (run : Result) : withLength s len next run = run := by
  rw [withLength, unlessFaulted_of_clear h, if_pos ((lengthLegal_iff ..).mpr ⟨h1, hW⟩)]

/-! ## Growth and the pack together -/

theorem Memory.ensureCapacity_bitAt (m : Memory) (bits p : Nat) (h : p < (m.ensureCapacity bits).capacityBits) :
    (m.ensureCapacity bits).bitAt p = some ((m.bitAt p).getD false) := by
  have hlen := Memory.ensureCapacity_len m bits
  unfold Memory.capacityBits at h
  unfold Memory.bitAt
  rw [Memory.ensureCapacity_read]
  unfold byteIndex
  split_ifs with h1 h2
  · rw [Memory.read_of_lt h1]; rfl
  · rw [Memory.read_of_ge (by omega)]; simp
  · omega

/-- Growth for a field and its pack give the store of a successful write. -/
theorem Memory.grow_pack_spec (m : Memory) (v : Word) (start len : Nat) :
    ∃ m', Memory.pack v start len (m.ensureCapacity (start + len)) = some m' ∧ m.FieldWritten m' v start len ∧
      (m.wf = true → m'.wf = true) := by
  have hlen := Memory.ensureCapacity_len m (start + len)
  have hcap : start + len ≤ (m.ensureCapacity (start + len)).capacityBits := by
    have := le_ceilBytes (start + len)
    unfold Memory.capacityBits
    omega
  obtain ⟨m', e, hl, hbit, hbyte, hw⟩ := Memory.pack_spec v start len _ hcap
  refine ⟨m', e, ⟨hl.trans hlen, ?_, ?_, ?_⟩, fun h => hw (Memory.ensureCapacity_wf _ h)⟩
  · intro p hp
    rw [hbit, Memory.ensureCapacity_bitAt]
    · rfl
    · unfold Memory.capacityBits at hp ⊢; omega
  · intro i hi ho
    rw [hbyte i ho, Memory.ensureCapacity_read, if_pos hi]
  · intro i hi hi' ho
    rw [hbyte i ho, Memory.ensureCapacity_read, if_neg (by omega), if_pos (by omega)]

/-! ## The write and the read of a field -/

theorem writeField_of_error {s : State} {value : Word} {start : Nat} {len : LenField} {e : CommandError}
    (h : writeCheck s.config value.toNat start len.toNat = some e) (w : Word) :
    writeField s value start len w = .next (s.raise e 0) := by
  rw [writeField, h]

/-- A write whose checks pass always succeeds. -/
theorem writeField_of_ok {s : State} {value : Word} {start : Nat} {len : LenField}
    (h : writeCheck s.config value.toNat start len.toNat = none) (w : Word) :
    ∃ m, writeField s value start len w =
        .next (((s.withStore m).withWcur w).respond .ok (some (len.zeroExtend 64)) 0) ∧
      s.store.FieldWritten m value start len.toNat ∧ (s.store.wf = true → m.wf = true) := by
  obtain ⟨m, e, hf, hw⟩ := Memory.grow_pack_spec s.store value start len.toNat
  refine ⟨m, ?_, hf, hw⟩
  rw [writeField, h]
  simp only [e]

theorem readField_of_out {s : State} {start : Nat} {len : LenField} (h : s.store.capacityBits < start + len.toNat)
    (ne ns : Word) : readField s start len ne ns = .next (s.raise (.recoverable .outOfRange) ne) := if_pos h

/-- A read within capacity always succeeds. -/
theorem readField_of_in {s : State} {start : Nat} {len : LenField} (h : start + len.toNat ≤ s.store.capacityBits)
    (ne ns : Word) :
    ∃ n, s.store.unpack start len.toNat = some n ∧ n < 2 ^ len.toNat ∧
      readField s start len ne ns = .next (s.respond .ok (some (BitVec.ofNat 64 n)) ns) := by
  obtain ⟨n, e, hn, -⟩ := Memory.unpack_spec s.store start len.toNat h
  refine ⟨n, e, hn, ?_⟩
  rw [readField, if_neg (by omega)]
  simp only [e]

/-- Every error code `writeCheck` answers, with its cause. -/
theorem writeCheck_cases (c : Config) (v start len : Nat) :
    (2 ^ len ≤ v ∧ writeCheck c v start len = some (.recoverable .fieldTooNarrow)) ∨
    (v < 2 ^ len ∧ c.maxBytes < ceilBytes (start + len) ∧
      writeCheck c v start len = some (.fatal .resourceExhausted)) ∨
    (v < 2 ^ len ∧ ceilBytes (start + len) ≤ c.maxBytes ∧ writeCheck c v start len = none) := by
  by_cases h1 : v < 2 ^ len
  · have hf := (fits_iff v len).mpr h1
    by_cases h2 : ceilBytes (start + len) ≤ c.maxBytes
    · exact .inr (.inr ⟨h1, h2, (writeCheck_eq_none_iff ..).mpr ⟨h1, h2⟩⟩)
    · refine .inr (.inl ⟨h1, by omega, ?_⟩)
      rw [writeCheck, if_neg (by simp [hf]), if_pos (by omega)]
  · refine .inl ⟨by omega, ?_⟩
    rw [writeCheck, if_pos ((fits_eq_false_iff ..).mpr (by omega))]

/-! ## RAWBYTE's read, illegal words, transactions -/

theorem State.takeIllegal_of_fault {s : State} (h : s.fault = true) :
    s.takeIllegal = .next (s.refuseFaulted 0) := unlessFaulted_of_fault h ..

theorem State.takeIllegal_of_clear {s : State} (h : s.fault = false) :
    s.takeIllegal = .next (s.raise (.fatal .illegalCommand) 0) := unlessFaulted_of_clear h ..

theorem execRequest_of_command {r : Request} {i : Instr} (h : decode r = .command i) (s : State) :
    execRequest r s = exec i s := by
  rw [execRequest, h]

theorem execRequest_of_illegal {r : Request} {why : Illegal} (h : decode r = .illegal why) (s : State) :
    execRequest r s = s.takeIllegal := by
  rw [execRequest, h]

theorem transact_of_next {r : Request} {s t : State} (h : execRequest r s = .next t) (takes : Bool) :
    transact r takes s = .next (if takes then t.deliver else t) := by
  rw [transact, h]

/-! ## The canonical form kept -/

theorem Memory.zeros_capacityBits (n : Nat) : (Memory.zeros n).capacityBits = 8 * n := rfl

end Sys2Proof.Machine
end

