-- ==== Sys2Proof/Laws/PerInstr.lean ====
section
/-! SUPPORT. The statements made per instruction. Family `OwnRow`: the command word of an encoded instruction matches its
own row of the opcode table, and no other (30_encoding.md R65, R73). -/

namespace Sys2Proof.Laws.OwnRow

/-- The row of the table that an encoded instruction's command word selects is the instruction's own. -/
def Statement (i : Instr) : Prop := decodeOpcode (encode i).cmd = some i.opcode

theorem insert_word : ∀ len : LenField, decodeOpcode (cmdWord .insert len) = some .insert := by decide
theorem append_word : ∀ len : LenField, decodeOpcode (cmdWord .append len) = some .append := by decide
theorem get_word : ∀ len : LenField, decodeOpcode (cmdWord .get len) = some .get := by decide
theorem getc_word : ∀ len : LenField, decodeOpcode (cmdWord .getc len) = some .getc := by decide

theorem new (size : Word) : Statement (.new size) := by
  show decodeOpcode (cmdWord .new 0#7) = some .new
  decide

theorem resize (bytes : Word) : Statement (.resize bytes) := by
  show decodeOpcode (cmdWord .resize 0#7) = some .resize
  decide

theorem rawbyte (index : Word) : Statement (.rawbyte index) := by
  show decodeOpcode (cmdWord .rawbyte 0#7) = some .rawbyte
  decide

theorem capbytes : Statement .capbytes := by
  show decodeOpcode (cmdWord .capbytes 0#7) = some .capbytes
  decide

theorem insert (value start : Word) (len : LenField) : Statement (.insert value start len) := insert_word len

theorem append (value : Word) (len : LenField) : Statement (.append value len) := append_word len

theorem get (start : Word) (len : LenField) : Statement (.get start len) := get_word len

theorem getc (cursor : Word) (len : LenField) : Statement (.getc cursor len) := getc_word len

theorem sizebits : Statement .sizebits := by
  show decodeOpcode (cmdWord .sizebits 0#7) = some .sizebits
  decide

end Sys2Proof.Laws.OwnRow
end

