-- ==== Sys2Proof/Laws/Step.lean ====
section
/-! SUPPORT. Everything a command, a request and a step can do, each said once: a proof over all of them takes the cases
of these lemmas and unfolds no meaning. -/

namespace Sys2Proof.Machine

variable {s t : State} {r : Request}

/-- How a request can end: refused or with a recoverable error, `S` as it was; with a fatal error, the latch set with its
code; or with success, as its command leaves the store and the cursor. -/
inductive Ends (r : Request) (s t : State) (q : Response) : Prop where
  | unchanged (h : s.sameS t) (hc : q.code ≠ 0x00#8) (hf : isFatalCode q.code = false)
  | fatal (hs : s.fault = false) (hst : t.store = s.store) (hw : t.wcur = s.wcur) (ht : t.fault = true)
      (hk : t.fcode = q.code) (hf : isFatalCode q.code = true)
  | ok (i : Instr) (hd : decode r = .command i) (hc : q.code = 0x00#8) (hs : s.fault = false) (ht : t.fault = s.fault)
      (hk : t.fcode = s.fcode) (he : s.AfterSuccess i t)

/-- The completion of a request, whichever end it takes: one response, and nothing beside `S` and the channel changed. -/
def Completion (r : Request) (s : State) (x : Result) : Prop :=
  ∃ t q, x = .next t ∧ t.rsp = some q ∧ s.sameSurroundings t ∧ Ends r s t q

theorem Completion.refused (next : Word) : Completion r s (.next (s.refuseFaulted next)) := by
  refine ⟨_, _, rfl, rfl, by simp [State.sameSurroundings], .unchanged (by simp [State.sameS]) ?_ ?_⟩ <;>
    simp [Response.code, isFatalCode, StatusCode.bits]

theorem Completion.recoverable (e : RecoverableError) (next : Word) :
    Completion r s (.next (s.raise (.recoverable e) next)) := by
  refine ⟨_, _, rfl, rfl, by simp [State.sameSurroundings], .unchanged (by simp [State.sameS]) ?_ ?_⟩ <;>
    cases e <;> simp [Response.code, isFatalCode, StatusCode.bits, CommandError.bits, RecoverableError.bits]

theorem Completion.fatal (hs : s.fault = false) (e : FatalError) (next : Word) :
    Completion r s (.next (s.raise (.fatal e) next)) := by
  refine ⟨_, _, rfl, rfl, by simp [State.sameSurroundings], .fatal hs (by simp) (by simp) rfl ?_ ?_⟩ <;>
    cases e <;> simp [Response.code, isFatalCode, StatusCode.bits, CommandError.bits, FatalError.bits]

theorem Completion.success {u : State} {i : Instr} (hd : decode r = .command i) (hs : s.fault = false)
    (hu : s.sameSurroundings u) (hf : u.fault = s.fault) (hk : u.fcode = s.fcode) (he : s.AfterSuccess i u) (res : Option Word)
    (next : Word) : Completion r s (.next (u.respond .ok res next)) :=
  ⟨_, _, rfl, rfl, hu, .ok i hd (by simp [Response.code, StatusCode.bits]) hs hf hk (by cases i <;> exact he)⟩

theorem Completion.guarded {next : Word} {run : Result} (h : s.fault = false → Completion r s run) :
    Completion r s (unlessFaulted s next run) := by
  cases hs : s.fault with
  | true =>
    rw [unlessFaulted_of_fault hs]
    exact .refused next
  | false =>
    rw [unlessFaulted_of_clear hs]
    exact h hs

theorem Completion.fieldGuarded {len : LenField} {next : Word} {run : Result}
    (h : s.fault = false → Completion r s run) : Completion r s (withLength s len next run) := by
  unfold withLength
  refine .guarded fun hs => ?_
  split
  · exact h hs
  · exact .fatal hs ..

theorem Completion.write {i : Instr} (hd : decode r = .command i) (hs : s.fault = false) {value : Word} {start : Nat}
    {len : LenField} {w : Word}
    (he : ∀ m, s.store.FieldWritten m value start len.toNat → s.AfterSuccess i ((s.withStore m).withWcur w)) :
    Completion r s (writeField s value start len w) := by
  rcases writeCheck_cases s.config value.toNat start len.toNat with ⟨-, e⟩ | ⟨-, -, e⟩ | ⟨-, -, e⟩
  · exact writeField_of_error e w ▸ .recoverable ..
  · exact writeField_of_error e w ▸ .fatal hs ..
  · obtain ⟨m, e, hm, -⟩ := writeField_of_ok e w
    rw [e]
    exact .success (u := (s.withStore m).withWcur w) hd hs ⟨rfl, rfl, rfl, rfl⟩ rfl rfl (he m hm) ..

theorem Completion.read {i : Instr} (hd : decode r = .command i) (hs : s.fault = false) (he : s.AfterSuccess i s)
    (start : Nat) (len : LenField) (ne ns : Word) : Completion r s (readField s start len ne ns) := by
  rcases Nat.lt_or_ge s.store.capacityBits (start + len.toNat) with h | h
  · exact readField_of_out h ne ns ▸ .recoverable ..
  · obtain ⟨n, -, -, e⟩ := readField_of_in h ne ns
    exact e ▸ .success hd hs ⟨rfl, rfl, rfl, rfl⟩ rfl rfl he ..

/-- Everything a command can do. -/
theorem exec_completion {i : Instr} (hd : decode r = .command i) (s : State) : Completion r s (exec i s) := by
  cases i with
  | new size =>
    refine .guarded fun hs => ?_
    split
    · exact .fatal hs ..
    · exact .success (u := (s.withStore (Memory.zeros (ceilBytes size.toNat))).withWcur 0) hd hs ⟨rfl, rfl, rfl, rfl⟩ rfl rfl
        ⟨rfl, rfl⟩ ..
  | resize bytes =>
    refine .guarded fun hs => ?_
    split
    · exact .recoverable ..
    split
    · exact .fatal hs ..
    · exact .success (u := s.withStore (s.store.setLen bytes.toNat)) hd hs ⟨rfl, rfl, rfl, rfl⟩ rfl rfl ⟨rfl, rfl⟩ ..
  | rawbyte index =>
    refine .guarded fun hs => ?_
    split
    · exact .fatal hs ..
    · rename_i h
      rw [Memory.read_of_lt (by omega)]
      exact .success hd hs ⟨rfl, rfl, rfl, rfl⟩ rfl rfl ⟨rfl, rfl⟩ ..
  | capbytes => exact .guarded fun hs => .success hd hs ⟨rfl, rfl, rfl, rfl⟩ rfl rfl ⟨rfl, rfl⟩ ..
  | insert value start len => exact .fieldGuarded fun hs => .write hd hs fun m hm => ⟨hm, rfl⟩
  | append value len => exact .fieldGuarded fun hs => .write hd hs fun m hm => ⟨hm, rfl⟩
  | get start len => exact .fieldGuarded fun hs => .read hd hs ⟨rfl, rfl⟩ ..
  | getc cursor len => exact .fieldGuarded fun hs => .read hd hs ⟨rfl, rfl⟩ ..
  | sizebits => exact .guarded fun hs => .success hd hs ⟨rfl, rfl, rfl, rfl⟩ rfl rfl ⟨rfl, rfl⟩ ..

/-- Everything a request can do, its word legal or not. -/
theorem execRequest_completion (r : Request) (s : State) : Completion r s (execRequest r s) := by
  cases h : decode r with
  | command i => exact execRequest_of_command h s ▸ exec_completion h s
  | illegal why => exact execRequest_of_illegal h s ▸ .guarded fun hs => .fatal hs ..

/-- Everything a step can do: reset, run the request it accepts, or leave `S`, the parameters and the level of `rst` as
they were. -/
theorem step_cases (h : step s = .next t) :
    s.resets ∧ (State.resetWith s.config).sameS t ∧ t.config = s.config ∨
    (¬ s.resets ∧ ∃ r q, s.accepts r ∧ s.answers t q ∧ t.config = s.config ∧ t.rst = s.rst ∧ Ends r s t q) ∨
    (¬ s.resets ∧ (∀ r, ¬ s.accepts r) ∧ s.sameS t ∧ t.config = s.config ∧ t.rst = s.rst) := by
  unfold step portStep at h
  cases hr : s.rst with
  | true =>
    rw [hr, if_pos rfl] at h
    cases h
    refine .inl ⟨.inl hr, ?_⟩
    unfold portUnderReset
    split <;> exact ⟨⟨rfl, rfl, rfl, rfl⟩, rfl⟩
  | false =>
    rw [hr, if_neg (by simp)] at h
    cases hh : s.host with
    | nil =>
      rw [hh] at h
      cases h
      exact .inr (.inr ⟨by simp [State.resets, hr, hh], by simp [State.accepts, hh], ⟨rfl, rfl, rfl, rfl⟩, rfl, hr⟩)
    | cons e rest =>
      rw [hh] at h
      cases e with
      | request r takes =>
        have hn : ¬ s.resets := by simp [State.resets, hr, hh]
        cases hq : s.reqReady with
        | false =>
          simp only [hq] at h
          cases h
          exact .inr (.inr ⟨hn, by simp [State.accepts, hq], ⟨rfl, rfl, rfl, rfl⟩, rfl, hr⟩)
        | true =>
          simp only [hq, if_true] at h
          obtain ⟨u, q, hu, hrsp, ⟨hc, hrst, -, hresp⟩, he⟩ := execRequest_completion r (s.withHost rest)
          rw [transact_of_next hu] at h
          cases h
          refine .inr (.inl ⟨hn, r, q, ⟨hq, takes, rest, hh⟩, ?_⟩)
          cases takes with
          | true =>
            refine ⟨.inl ⟨by simp, by simp [hrsp, hresp]⟩, by simp [hc], by simp [hrst, hr], ?_⟩
            rcases he with ⟨⟨a, b, c, d⟩, x, y⟩ | ⟨a, b, c, d, e, f⟩ | ⟨i, hd, a, b, c, d, e⟩
            · exact .unchanged ⟨by simp [a], by simp [b], by simp [c], by simp [d]⟩ x y
            · exact .fatal a (by simp [b]) (by simp [c]) (by simp [d]) (by simp [e]) f
            · exact .ok i hd a b (by simp [c]) (by simp [d]) (by cases i <;> simpa [State.AfterSuccess] using e)
          | false =>
            refine ⟨.inr ⟨hrsp, hresp⟩, hc, hrst.trans hr, ?_⟩
            rcases he with ⟨a, x, y⟩ | ⟨a, b, c, d, e, f⟩ | ⟨i, hd, a, b, c, d, e⟩
            · exact .unchanged a x y
            · exact .fatal a b c d e f
            · exact .ok i hd a b c d (by cases i <;> exact e)
      | takeResponse =>
        cases h
        exact .inr (.inr ⟨by simp [State.resets, hr, hh], by simp [State.accepts, hh], by simp [State.sameS], by simp,
          by simp [hr]⟩)
      | driveReset level =>
        cases level with
        | true =>
          cases h
          exact .inl ⟨.inr ⟨rest, hh⟩, ⟨rfl, rfl, rfl, rfl⟩, rfl⟩
        | false =>
          cases h
          exact .inr (.inr ⟨by simp [State.resets, hr, hh], by simp [State.accepts, hh], ⟨rfl, rfl, rfl, rfl⟩, rfl, hr⟩)

end Sys2Proof.Machine
end

