-- ==== Sys2Proof/Tests/Slice0.lean ====
section
/-! SUPPORT. The model's own tests. Every expected result is one of 95_test_vectors.md (its vector is named in the
comment) or is worked out by hand from the rule named; and for each statement of Obligations.lean a witness that meets its
hypotheses. -/

namespace Sys2Proof.Tests

open Sys2Proof.Machine

/-! ## Small states -/

/-- A block with the given store and cursor, as from reset otherwise. -/
def block (len : Nat) (cells : List Host.Cell) (wcur : Word) : State :=
  { State.reset with store := { len := len, cells := cells }, wcur := wcur }

/-- The state `S8` of 95_test_vectors.md: store `[BE 10]`, cursor 12. -/
def s8 : State := block 2 [(0, 0xBE), (1, 0x10)] 12

/-- A state with the given parameters. -/
def withConfig (s : State) (w : ValueWidth) (maxBytes : Nat) : State :=
  { s with config := { valueWidth := w, maxBytes := maxBytes } }

/-- A state in the faulted state with the code of BAD_LENGTH. -/
def faulted (s : State) : State := { s with fault := true, fcode := 0x12 }

/-- What a vector's row shows of one request: STATUS, RES and NEXT, the store's bytes, the cursor, the latch. -/
structure Row where
  rsp : Option Response
  bytes : List Byte
  wcur : Nat
  fault : Bool
  fcode : BitVec 8
deriving DecidableEq

def observe : Result → Option Row
  | .next t => some ⟨t.rsp, t.store.bytes, t.wcur.toNat, t.fault, t.fcode⟩
  | .fault _ => none
  | .refused _ => none

/-- One request, as the words of a vector's row. -/
def run (s : State) (cmd : CmdWord) (opa opb : Word) : Option Row :=
  observe (execRequest { cmd := cmd, opa := opa, opb := opb } s)

/-! ## Well-formedness: a line the assembler refuses, for each check (30_encoding.md R69) -/

theorem test_wellFormed_accepts : Line.wellFormed (.insert (2 ^ 64 - 1) (2 ^ 64 - 1) 127) = true := by decide
theorem test_wellFormed_refuses_value : Line.wellFormed (.insert (2 ^ 64) 0 1) = false := by decide
theorem test_wellFormed_refuses_start : Line.wellFormed (.insert 0 (2 ^ 64) 1) = false := by decide
theorem test_wellFormed_refuses_len : Line.wellFormed (.insert 0 0 128) = false := by decide
theorem test_wellFormed_refuses_append_value : Line.wellFormed (.append (2 ^ 64) 1) = false := by decide
theorem test_wellFormed_refuses_append_len : Line.wellFormed (.append 0 128) = false := by decide
theorem test_wellFormed_refuses_get_start : Line.wellFormed (.get (2 ^ 64) 1) = false := by decide
theorem test_wellFormed_refuses_get_len : Line.wellFormed (.get 0 128) = false := by decide
theorem test_wellFormed_refuses_getc_cursor : Line.wellFormed (.getc (2 ^ 64) 1) = false := by decide
theorem test_wellFormed_refuses_getc_len : Line.wellFormed (.getc 0 128) = false := by decide
theorem test_wellFormed_refuses_new_size : Line.wellFormed (.new (some (2 ^ 64))) = false := by decide
theorem test_wellFormed_refuses_resize_bytes : Line.wellFormed (.resize (2 ^ 64)) = false := by decide
theorem test_wellFormed_refuses_rawbyte_index : Line.wellFormed (.rawbyte (2 ^ 64)) = false := by decide

/-- VW1's line and its words; `NEW` alone is `NEW 0` (R70). -/
theorem test_assemble :
    assemble (.insert 0xABC 4 12) = some { cmd := 0x000000C5, opa := 0xABC, opb := 4 } ∧
    assemble (.new none) = some { cmd := 0x00000001, opa := 0, opb := 0 } ∧
    assemble (.append 0 128) = none := by decide

/-! ## Decoding: each constructor from a word written out bit by bit (30_encoding.md R62, R65) -/

theorem test_decode_new :
    decode { cmd := 0b00000000000000000000000000000001, opa := 9, opb := 12 } = .command (.new 12) := by decide
theorem test_decode_resize :
    decode { cmd := 0b00000000000000000000000000000010, opa := 9, opb := 4 } = .command (.resize 4) := by decide
theorem test_decode_rawbyte :
    decode { cmd := 0b00000000000000000000000000000011, opa := 9, opb := 1 } = .command (.rawbyte 1) := by decide
theorem test_decode_capbytes :
    decode { cmd := 0b00000000000000000000000000000100, opa := 9, opb := 9 } = .command .capbytes := by decide
theorem test_decode_insert :
    decode { cmd := 0b00000000000000000000000011000101, opa := 0xABC, opb := 4 } = .command (.insert 0xABC 4 12) := by
  decide
theorem test_decode_append :
    decode { cmd := 0b00000000000000000000000000110110, opa := 5, opb := 9 } = .command (.append 5 3) := by decide
theorem test_decode_get :
    decode { cmd := 0b00000000000000000000000010000111, opa := 9, opb := 3 } = .command (.get 3 8) := by decide
theorem test_decode_getc :
    decode { cmd := 0b00000000000000000000010000001000, opa := 9, opb := 1 } = .command (.getc 1 64) := by decide
theorem test_decode_sizebits :
    decode { cmd := 0b00000000000000000000000000001001, opa := 9, opb := 9 } = .command .sizebits := by decide

/-- The decode-only vectors of 95_test_vectors.md section 2.5 that are illegal or at the ends of LEN. -/
theorem test_decode_vectors :
    decode { cmd := 0x00000019, opa := 0, opb := 0 } = .illegal .lengthOnZ ∧
    decode { cmd := 0x000007F5, opa := 0, opb := 0 } = .command (.insert 0 0 127) ∧
    decode { cmd := 0x00000005, opa := 0, opb := 0 } = .command (.insert 0 0 0) ∧
    decode { cmd := 0x00000C05, opa := 0, opb := 0 } = .illegal .reservedBits ∧
    decode { cmd := 0x0000000B, opa := 0, opb := 0 } = .illegal .unassignedOpcode ∧
    decode { cmd := 0xFFFFFFFF, opa := 0, opb := 0 } = .illegal .unassignedOpcode ∧
    decode { cmd := 0x00000000, opa := 0, opb := 0 } = .illegal .unassignedOpcode := by decide

/-- The opcode table's numbering: a row's 32 bits with the operand words 0, and all 160 bits. -/
theorem test_decodeTableWord :
    decodeTableWord 32 0x36 = some (.append 0 3) ∧
    decodeTableWord 160 (0xC5 + 2 ^ 32 * 0xABC + 2 ^ 96 * 4) = some (.insert 0xABC 4 12) ∧
    decodeTableWord 32 0 = none := by decide

/-! ## The arithmetic unit (VA1 to VA17) -/

theorem test_byte_boundaries :
    [0, 7, 8, 12, 65].map byteIndex = [0, 0, 1, 1, 8] ∧ [0, 7, 8, 12].map bitOffsetInByte = [0, 7, 0, 4] ∧
    [0, 7, 8, 12].map bitsRemainingInByte = [8, 1, 8, 4] ∧
    [0, 1, 8, 9, 12, 65].map ceilBytes = [0, 1, 1, 2, 2, 9] := by decide
theorem test_mask :
    [0, 1, 7, 8, 63, 64].map mask = [0x0, 0x1, 0x7F, 0xFF, 0x7FFFFFFFFFFFFFFF, 0xFFFFFFFFFFFFFFFF] := by decide
theorem test_extractBits :
    extractBitsInPlace 0b11110000 3 5 = 0xF0 ∧ extractBitsShifted 0b11110000 3 5 = 0x1E ∧
    extractBitsInPlace 0xABC 4 4 = 0xB0 ∧ extractBitsShifted 0xABC 4 4 = 0xB ∧ extractBitsInPlace 0xABC 0 0 = 0 ∧
    extractBitsShifted 0xFFFFFFFFFFFFFFFF 0 64 = 0xFFFFFFFFFFFFFFFF ∧
    extractBitsShifted 0x8000000000000001 63 1 = 1 ∧
    extractBitsInPlace 0x8000000000000001 63 1 = 0x8000000000000000 := by decide
theorem test_mostSignificantSetBit :
    [0, 1, 0b1010, 0xFF, 0x8000000000000000].map mostSignificantSetBit = [none, some 0, some 3, some 7, some 63] := by
  decide
theorem test_fits :
    fits 0b1010 2 = false ∧ fits 0b1010 4 = true ∧ fits 0b1010 3 = false ∧ fits 0 1 = true ∧ fits 1 1 = true ∧
    fits 2 1 = false ∧ fits 0x7F 7 = true ∧ fits 0x80 7 = false ∧ fits 0xFFFFFFFFFFFFFFFF 64 = true ∧
    fits 0xFFFFFFFFFFFFFFFF 63 = false := by decide

/-- The byte-wise write of VW2 and read of VR4, worked in 95_test_vectors.md V5 and section 2.4. -/
theorem test_bytewise :
    ((Memory.zeros 3).packBytewise 0xFEDCB 2 20).map Memory.bytes = some [0x3F, 0xB7, 0x2C] ∧
    s8.store.unpackBytewise 3 8 = some 0xF0 := by decide

/-! ## The commands, one request each -/

/-- VB1. -/
theorem test_new : run State.reset 0x1 0 0xC = some ⟨some ⟨0x0, 0, 0⟩, [0, 0], 0, false, 0⟩ := by decide
/-- VB21: a failed NEW keeps the store. -/
theorem test_new_exhausted :
    run (withConfig (block 4 [] 0) .w64 4) 0x1 0 0x21 = some ⟨some ⟨0x00100210, 0, 0⟩, [0, 0, 0, 0], 0, true, 0x10⟩ := by
  decide
/-- VB6: a shrink below the cursor. -/
theorem test_resize_below_cursor :
    run s8 0x2 0 1 = some ⟨some ⟨0x3, 0, 0⟩, [0xBE, 0x10], 12, false, 0⟩ := by decide
/-- VB12: a shrink past the cursor drops an INSERTed byte. -/
theorem test_resize_drops :
    run (block 3 [(0, 0x80), (2, 0xFF)] 1) 0x2 0 1 = some ⟨some ⟨0x0, 0, 0⟩, [0x80], 1, false, 0⟩ := by decide
/-- VB14. -/
theorem test_rawbyte : run s8 0x3 0 0 = some ⟨some ⟨0x100, 0xBE, 0⟩, [0xBE, 0x10], 12, false, 0⟩ := by decide
/-- VB16: one past the end. -/
theorem test_rawbyte_past_end :
    run s8 0x3 0 2 = some ⟨some ⟨0x00130213, 0, 0⟩, [0xBE, 0x10], 12, true, 0x13⟩ := by decide
/-- VB20: ignored operands. -/
theorem test_capbytes :
    run s8 0x4 0xFFFFFFFFFFFFFFFF 0xFFFFFFFFFFFFFFFF = some ⟨some ⟨0x100, 2, 0⟩, [0xBE, 0x10], 12, false, 0⟩ := by decide
/-- VW7: an unaligned 64-bit field across nine bytes. -/
theorem test_insert :
    run State.reset 0x405 0x8000000000000001 7 =
      some ⟨some ⟨0x100, 0x40, 0⟩, [0x01, 0, 0, 0, 0, 0, 0, 0, 0x02], 0, false, 0⟩ := by decide
/-- VW11: a write ORs over what is there. -/
theorem test_insert_overlay :
    run (block 1 [(0, 0xC0)] 0) 0x45 0xA 0 = some ⟨some ⟨0x100, 4, 0⟩, [0xE0], 0, false, 0⟩ := by decide
/-- VW22. -/
theorem test_append :
    run (block 1 [(0, 0x80)] 1) 0x406 0x0123456789ABCDEF 0 =
      some ⟨some ⟨0x100, 0x40, 0⟩, [0x80, 0x91, 0xA2, 0xB3, 0xC4, 0xD5, 0xE6, 0xF7, 0x80], 65, false, 0⟩ := by decide
/-- VE24: no room, nothing changes but the latch. -/
theorem test_append_exhausted :
    run (withConfig (block 4 [] 32) .w64 4) 0x16 1 0 =
      some ⟨some ⟨0x00100210, 0, 0⟩, [0, 0, 0, 0], 32, true, 0x10⟩ := by decide
/-- VR4. -/
theorem test_get : run s8 0x87 0 3 = some ⟨some ⟨0x100, 0xF0, 0⟩, [0xBE, 0x10], 12, false, 0⟩ := by decide
/-- VR24: the range test does not wrap. -/
theorem test_get_no_wrap :
    run s8 0x207 0 0xFFFFFFFFFFFFFFF0 = some ⟨some ⟨0x2, 0, 0⟩, [0xBE, 0x10], 12, false, 0⟩ := by decide
/-- VR13: up to the very end of the store. -/
theorem test_getc : run s8 0x48 0 0xC = some ⟨some ⟨0x100, 0, 0x10⟩, [0xBE, 0x10], 12, false, 0⟩ := by decide
/-- VE11: NEXT is the cursor on an error. -/
theorem test_getc_bad_length :
    run State.reset 0x8 0 7 = some ⟨some ⟨0x00120212, 0, 7⟩, [], 0, true, 0x12⟩ := by decide
/-- VR23. -/
theorem test_sizebits : run s8 0x9 0 0 = some ⟨some ⟨0x100, 0xC, 0⟩, [0xBE, 0x10], 12, false, 0⟩ := by decide

/-! ## Errors, priority and the latch (95_test_vectors.md section 2.5) -/

/-- VE7: the opcode of GETC with a reserved bit set is no GETC. -/
theorem test_illegal : run State.reset 0x808 0 5 = some ⟨some ⟨0x00110211, 0, 0⟩, [], 0, true, 0x11⟩ := by decide
/-- VE10 and VE12: BAD_LENGTH before FIELD_TOO_NARROW before RESOURCE_EXHAUSTED. -/
theorem test_priority :
    run State.reset 0x6 0xA 0 = some ⟨some ⟨0x00120212, 0, 0⟩, [], 0, true, 0x12⟩ ∧
    run State.reset 0x25 0xA 0xFFFFFFFFFFFFFFFF = some ⟨some ⟨0x1, 0, 0⟩, [], 0, false, 0⟩ := by decide
/-- VE14, VE15, VE16: NEW, GETC and an illegal word in the faulted state. -/
theorem test_faulted :
    run (faulted State.reset) 0x1 0 0 = some ⟨some ⟨0x0012021F, 0, 0⟩, [], 0, true, 0x12⟩ ∧
    run (faulted State.reset) 0x28 0 0x10 = some ⟨some ⟨0x0012021F, 0, 0x10⟩, [], 0, true, 0x12⟩ ∧
    run (faulted State.reset) 0x0 0 0 = some ⟨some ⟨0x0012021F, 0, 0⟩, [], 0, true, 0x12⟩ := by decide
/-- VE20 and VE21: `W = 8`. -/
theorem test_width_8 :
    run (withConfig State.reset .w8 (2 ^ 60)) 0x86 0x100 0 = some ⟨some ⟨0x1, 0, 0⟩, [], 0, false, 0⟩ ∧
    run (withConfig State.reset .w8 (2 ^ 60)) 0x96 0 0 = some ⟨some ⟨0x00120212, 0, 0⟩, [], 0, true, 0x12⟩ := by decide

/-! ## The step -/

/-- P1 step 1 as a step from reset: the response is delivered and the port is ready again. -/
theorem test_step_append :
    (match step (State.reset.present { cmd := 0x36, opa := 5, opb := 0 }) with
     | .next t => decide (t.responses = [⟨0x100, 3, 0⟩] ∧ t.store.bytes = [0xA0] ∧ t.reqReady = true ∧ t.host = [])
     | .fault _ => false
     | .refused _ => false) = true := by decide

/-- 70_reset_and_hazards.md R190: reset discards an accepted command whose response has not transferred. -/
theorem test_step_reset :
    (match step { (faulted s8) with rsp := some ⟨0x100, 3, 0⟩, host := [.driveReset true] } with
     | .next t => decide (t = { State.reset with rst := true })
     | .fault _ => false
     | .refused _ => false) = true := by decide

/-! ## Witnesses: for each statement with hypotheses, a state and operands that meet them, clause by clause -/

theorem s8_inv : s8.Inv := by constructor <;> decide

theorem faulted_s8_inv : (faulted s8).Inv := by constructor <;> decide

/-- `s8` with at most 4 bytes. -/
def small : State := withConfig s8 .w64 4

/-- `s8` with the host's further actions. -/
def acting (h : List HostEvent) : State := s8.withHost h

/-- `s8` with a response standing on the channel. -/
def held (h : List HostEvent) : State := { acting h with rsp := some ⟨0x100, 3, 0⟩ }

/-- `s8` while `rst = 1`. -/
def inReset (h : List HostEvent) : State := (acting h).withRst true

/-- `GET 0, 3` as a request. -/
def get03 : Request := ⟨0x37, 0, 0⟩

theorem witness_DecodingIsTheUniqueMatchingRow :
    Opcode.insert.matches 0xC5 = true ∧ (∀ o ∈ Opcode.all, o.matches 0xB = false) := by decide

theorem witness_EncodeOfDecodeIsTheCommandWord : decode ⟨0xC5, 0xABC, 4⟩ = .command (.insert 0xABC 4 12) := by decide

theorem witness_IllegalWordsAreRule66AndFatal :
    s8.fault = false ∧ (∃ why, decode ⟨0x19, 0, 0⟩ = .illegal why) ∧
    decode ⟨0x416, 0, 0⟩ = .command (.append 0 65) ∧ isField (Instr.opcode (.append 0 65)) = true ∧
    s8.config.valueWidth.bits < (cmdLen 0x416).toNat ∧ decode ⟨0x6, 0, 0⟩ = .command (.append 0 0) ∧
    (cmdLen 0x6).toNat = 0 := ⟨rfl, ⟨_, rfl⟩, by decide⟩

theorem witness_IgnoredOperandsAffectNothing :
    decode ⟨0x2, 7, 4⟩ = .command (.resize 4) ∧ Instr.opcode (.resize 4) ≠ .insert ∧
    Instr.opcode (.resize 4) ≠ .append ∧ decode ⟨0x36, 5, 7⟩ = .command (.append 5 3) ∧
    Instr.opcode (.append 5 3) = .append := by decide

theorem witness_ResetSatisfiesTheInvariants : Config.standard.legal = true := by decide

theorem witness_StepKeepsTheInvariants :
    (acting [.request get03 true]).Inv ∧ ∃ t, step (acting [.request get03 true]) = .next t :=
  ⟨by constructor <;> decide, _, rfl⟩

theorem witness_AcceptedRequestGetsOneResponse :
    (acting [.request get03 true]).reqReady = true ∧ (acting [.request get03 true]).host = [.request get03 true] ∧
    (acting [.request get03 false]).reqReady = true ∧ (acting [.request get03 false]).host = [.request get03 false] := by
  decide

theorem witness_StepRunsTheDecodedCommand :
    (acting [.request get03 true]).reqReady = true ∧ (acting [.request get03 true]).host = [.request get03 true] ∧
    decode get03 = .command (.get 0 3) ∧ ∃ t, exec (.get 0 3) ((acting [.request get03 true]).withHost []) = .next t :=
  ⟨by decide, by decide, by decide, _, rfl⟩

theorem witness_HeldResponseBlocksUntilTaken :
    (held [.request get03 true]).rst = false ∧ (held [.request get03 true]).rsp = some ⟨0x100, 3, 0⟩ ∧
    (held [.request get03 true]).host = [.request get03 true] ∧ (held [.takeResponse]).rst = false ∧
    (held [.takeResponse]).rsp = some ⟨0x100, 3, 0⟩ ∧ (held [.takeResponse]).host = [.takeResponse] := by decide

theorem witness_IdleBlockKeepsItsState : s8.rst = false ∧ s8.host = [] := by decide

theorem witness_ResetClearsTheBlock :
    (held [.driveReset true]).host = [.driveReset true] ∧ (inReset [.driveReset false]).rst = true ∧
    (inReset [.driveReset false]).host = [.driveReset false] ∧ (inReset []).rst = true ∧
    (∀ rest, (inReset []).host ≠ .driveReset false :: rest) ∧ (inReset [.request get03 true]).rst = true ∧
    (inReset [.request get03 true]).host = [.request get03 true] ∧ (faulted s8).fault = true ∧
    (∃ t, step ((faulted s8).withHost [.driveReset true]) = .next t ∧ t.fault = false) :=
  ⟨rfl, rfl, rfl, rfl, fun _ h => (List.cons_ne_nil _ _ h.symm), rfl, rfl, rfl, _, rfl, rfl⟩

theorem witness_ProgramOfKRequestsGetsKResponses :
    (acting (programEvents [get03, ⟨0x0, 0, 0⟩])).reqReady = true ∧
    (acting (programEvents [get03, ⟨0x0, 0, 0⟩])).host = programEvents [get03, ⟨0x0, 0, 0⟩] := by decide

theorem witness_NewFollowsItsRule :
    (faulted s8).fault = true ∧ small.fault = false ∧ small.config.maxBytes < ((33 : Word).toNat + 7) / 8 ∧
    ((32 : Word).toNat + 7) / 8 ≤ small.config.maxBytes := by decide

theorem small_inv : small.Inv := by constructor <;> decide

theorem witness_ResizeFollowsItsRule :
    (faulted s8).fault = true ∧ small.fault = false ∧ 8 * (1 : Word).toNat < small.wcur.toNat ∧
    small.wcur.toNat ≤ 8 * (5 : Word).toNat ∧ small.config.maxBytes < (5 : Word).toNat ∧
    small.wcur.toNat ≤ 8 * (4 : Word).toNat ∧ (4 : Word).toNat ≤ small.config.maxBytes ∧ small.Inv :=
  ⟨by decide, by decide, by decide, by decide, by decide, by decide, by decide, small_inv⟩

theorem witness_RawbyteFollowsItsRule :
    (faulted s8).fault = true ∧ s8.fault = false ∧ s8.store.len ≤ (2 : Word).toNat ∧
    (1 : Word).toNat < s8.store.len := by decide

theorem witness_CapbytesFollowsItsRule : (faulted s8).fault = true ∧ s8.fault = false ∧ s8.Inv :=
  ⟨rfl, rfl, s8_inv⟩

/-- Resized from 2 bytes to 2, then to 3: byte 2 is one the store gains. -/
theorem witness_DroppedBytesComeBackZero :
    ∃ t u, exec (.resize 2) s8 = .next t ∧ t.rsp = some (okResponse s8.fcode none 0) ∧
      exec (.resize 3) t = .next u ∧ u.rsp = some (okResponse t.fcode none 0) ∧ (2 : Word).toNat ≤ 2 ∧
      2 < (3 : Word).toNat :=
  ⟨_, _, rfl, by decide, rfl, by decide, by decide, by decide⟩

theorem witness_InsertFollowsItsRule :
    (faulted small).fault = true ∧ small.fault = false ∧ (0 : LenField).toNat = 0 ∧
    small.config.valueWidth.bits < (65 : LenField).toNat ∧ 1 ≤ (2 : LenField).toNat ∧
    (2 : LenField).toNat ≤ small.config.valueWidth.bits ∧ 2 ^ (2 : LenField).toNat ≤ (4 : Word).toNat ∧
    (3 : Word).toNat < 2 ^ (2 : LenField).toNat ∧
    small.config.maxBytes < ceilBytes ((31 : Word).toNat + (2 : LenField).toNat) ∧
    ceilBytes ((30 : Word).toNat + (2 : LenField).toNat) ≤ small.config.maxBytes := by decide

theorem witness_AppendFollowsItsRule :
    small.config.legal = true ∧ (faulted small).fault = true ∧ small.fault = false ∧ (0 : LenField).toNat = 0 ∧
    small.config.valueWidth.bits < (65 : LenField).toNat ∧ 1 ≤ (20 : LenField).toNat ∧
    (21 : LenField).toNat ≤ small.config.valueWidth.bits ∧ 2 ^ (20 : LenField).toNat ≤ (0x100000 : Word).toNat ∧
    (0xFFFFF : Word).toNat < 2 ^ (20 : LenField).toNat ∧
    small.config.maxBytes < ceilBytes (small.wcur.toNat + (21 : LenField).toNat) ∧
    ceilBytes (small.wcur.toNat + (20 : LenField).toNat) ≤ small.config.maxBytes := by decide

theorem witness_ValueWiderThanWNeverFits :
    (withConfig s8 .w8 4).fault = false ∧ 1 ≤ (8 : LenField).toNat ∧
    (8 : LenField).toNat ≤ (withConfig s8 .w8 4).config.valueWidth.bits ∧
    (withConfig s8 .w8 4).config.valueWidth.bits ≤ 8 ∧ (0x100 : Word).getLsbD 8 = true := by decide

theorem witness_WritesOnlySetBits :
    ∃ t, exec (.insert 1 1 1) s8 = .next t ∧ Instr.opcode (.insert 1 1 1) = .insert ∧ s8.store.bitAt 0 = some true :=
  ⟨_, rfl, rfl, by decide⟩

theorem witness_InsertIsIdempotent :
    s8.Inv ∧ ∃ t, exec (.insert 1 1 1) s8 = .next t ∧
      t.rsp = some (okResponse s8.fcode (some ((1 : LenField).zeroExtend 64)) 0) :=
  ⟨s8_inv, _, rfl, by decide⟩

theorem witness_AppendAdvancesTheCursor :
    s8.Inv ∧ ∃ t, exec (.append 1 1) s8 = .next t ∧
      t.rsp = some (okResponse s8.fcode (some ((1 : LenField).zeroExtend 64)) 0) :=
  ⟨s8_inv, _, rfl, by decide⟩

theorem witness_PackBytewiseEqualsPack :
    s8.store.wf = true ∧ 12 + 4 ≤ s8.store.capacityBits := by decide

theorem witness_OffsetArithmeticDoesNotWrap : s8.config.legal = true ∧ s8.fault = false := by decide

theorem witness_GetFollowsItsRule :
    (faulted s8).fault = true ∧ s8.fault = false ∧ (0 : LenField).toNat = 0 ∧
    s8.config.valueWidth.bits < (65 : LenField).toNat ∧ 1 ≤ (4 : LenField).toNat ∧
    (4 : LenField).toNat ≤ s8.config.valueWidth.bits ∧
    8 * s8.store.len < (13 : Word).toNat + (4 : LenField).toNat ∧
    (12 : Word).toNat + (4 : LenField).toNat ≤ 8 * s8.store.len := by decide

theorem witness_GetcFollowsItsRule :
    s8.Inv ∧ (faulted s8).Inv ∧ (faulted s8).fault = true ∧ s8.fault = false ∧ (0 : LenField).toNat = 0 ∧
    s8.config.valueWidth.bits < (65 : LenField).toNat ∧ 1 ≤ (4 : LenField).toNat ∧
    (4 : LenField).toNat ≤ s8.config.valueWidth.bits ∧
    8 * s8.store.len < (13 : Word).toNat + (4 : LenField).toNat ∧
    (12 : Word).toNat + (4 : LenField).toNat ≤ 8 * s8.store.len :=
  ⟨s8_inv, faulted_s8_inv, by decide⟩

theorem witness_SizebitsFollowsItsRule : (faulted s8).fault = true ∧ s8.fault = false := by decide

theorem witness_UnpackIsTheSumAndInvertsPack :
    12 + 4 ≤ s8.store.capacityBits ∧ (0xF : Word).toNat < 2 ^ 4 ∧
    (∀ i, i < 4 → s8.store.bitAt (12 + i) = some false) ∧ ∃ m, Memory.pack 0xF 12 4 s8.store = some m :=
  ⟨by decide, by decide, by decide, _, rfl⟩

theorem witness_UnpackBytewiseEqualsUnpack : 3 + 8 ≤ s8.store.capacityBits := by decide

theorem witness_FieldAndByteViewsAgree :
    s8.fault = false ∧ 8 * 0 + 16 < 2 ^ 64 ∧ 0 < s8.store.len ∧ 0 + 1 < s8.store.len ∧
    16 ≤ s8.config.valueWidth.bits := by decide

theorem witness_ReadsHaveNoSideEffects :
    Instr.opcode (.get 0 3) = .get ∧
    (∃ t q, exec (.get 0 3) s8 = .next t ∧ t.rsp = some q ∧ isFatalCode q.code = false) :=
  ⟨rfl, _, _, rfl, rfl, by decide⟩

theorem witness_FreshStoreReadsZero :
    ∃ t, exec (.new 12) s8 = .next t ∧ t.rsp = some (okResponse s8.fcode none 0) ∧ 1 ≤ (16 : LenField).toNat ∧
      (16 : LenField).toNat ≤ s8.config.valueWidth.bits ∧ (0 : Word).toNat + (16 : LenField).toNat ≤ 8 * t.store.len :=
  ⟨_, rfl, by decide, by decide, by decide, by decide⟩

theorem witness_InsertedFieldReadsBack :
    (∀ p, (12 : Word).toNat ≤ p → p < (12 : Word).toNat + (4 : LenField).toNat → p < s8.store.capacityBits →
      s8.store.bitAt p = some false) ∧
    ∃ t, exec (.insert 0xF 12 4) s8 = .next t ∧
      t.rsp = some (okResponse s8.fcode (some ((4 : LenField).zeroExtend 64)) 0) := by
  refine ⟨?_, _, rfl, by decide⟩
  intro p h1 h2 _
  simp only [BitVec.reduceToNat] at h1 h2
  have : p = 12 ∨ p = 13 ∨ p = 14 ∨ p = 15 := by omega
  rcases this with rfl | rfl | rfl | rfl <;> decide

/-- The three fields of V1, appended from reset. -/
def v1 : List (Word × LenField) := [(0b101, 3), (0b11110000, 8), (0b1, 1)]

theorem witness_AppendedFieldsReadBack :
    State.reset.Inv ∧ State.reset.fault = false ∧
    (∀ p, State.reset.wcur.toNat ≤ p → p < State.reset.store.capacityBits →
      State.reset.store.bitAt p = some false) ∧
    (∀ f ∈ v1, 1 ≤ f.2.toNat ∧ f.2.toNat ≤ State.reset.config.valueWidth.bits ∧ f.1.toNat < 2 ^ f.2.toNat) ∧
    (∃ t, appendAll v1 State.reset = some t) ∧ v1[1]? = some (0b11110000, 8) :=
  ⟨by constructor <;> decide, rfl, fun p _ h => absurd h (Nat.not_lt_zero p),
    by intro f hf; simp only [v1, List.mem_cons, List.not_mem_nil, or_false] at hf; rcases hf with rfl | rfl | rfl <;> decide,
    Option.isSome_iff_exists.mp (by decide), rfl⟩

theorem witness_RecoverableErrorsChangeNothing :
    ∃ t q, execRequest ⟨0x17, 0, 16⟩ s8 = .next t ∧ t.rsp = some q ∧ q.code = 0x02 := ⟨_, _, rfl, rfl, by decide⟩

theorem witness_FatalErrorsLatchTheirCode :
    ∃ t q, execRequest ⟨0x3, 0, 2⟩ s8 = .next t ∧ t.rsp = some q ∧ isFatalCode q.code = true :=
  ⟨_, _, rfl, rfl, by decide⟩

theorem witness_FaultedBlockRefusesUntilReset :
    (faulted s8).fault = true ∧ ∃ t, step ((faulted s8).withHost [.driveReset true]) = .next t ∧ t.fault = false :=
  ⟨rfl, _, rfl, rfl⟩

/-- `RAWBYTE 2`, past the end of `s8`. -/
def raw2 : Request := ⟨0x3, 0, 2⟩

theorem witness_OnlyFatalErrorsSetTheLatch :
    (∃ t, execRequest raw2 s8 = .next t ∧ s8.fault = false ∧ t.fault = true) ∧
    (∃ t, step (acting [.request raw2 true]) = .next t ∧ (acting [.request raw2 true]).fault = false ∧ t.fault = true ∧
      t.fcode ≠ (acting [.request raw2 true]).fcode) ∧
    ∃ t, step ((faulted s8).withHost [.driveReset true]) = .next t ∧ (faulted s8).fault = true ∧ t.fault = false ∧
      t.fcode ≠ ((faulted s8).withHost [.driveReset true]).fcode :=
  ⟨⟨_, rfl, rfl, by decide⟩, ⟨_, rfl, rfl, by decide, by decide⟩, _, rfl, rfl, by decide, by decide⟩

theorem witness_FieldsNotProducedAreZero :
    s8.Inv ∧ decode ⟨0x88, 0, 3⟩ = .command (.getc 3 8) ∧ ¬ ∃ c len, decode ⟨0x0, 0, 0⟩ = .command (.getc c len) :=
  ⟨s8_inv, by decide, fun ⟨_, _, h⟩ => Decoded.noConfusion h⟩

theorem witness_FirstConditionIsReported : s8.Inv := s8_inv

theorem witness_LengthChangesOnlyByRule :
    (∃ t, execRequest ⟨0x86, 0, 0⟩ s8 = .next t ∧ t.store.len ≠ s8.store.len) ∧
    (∃ t, step (acting [.driveReset true]) = .next t ∧ t.store.len ≠ (acting [.driveReset true]).store.len) ∧
    ∃ t, step (acting [.request ⟨0x86, 0, 0⟩ true]) = .next t ∧ t.store.len ≠ s8.store.len :=
  ⟨⟨_, rfl, by decide⟩, ⟨_, rfl, by decide⟩, _, rfl, by decide⟩

theorem witness_CursorWrittenOnlyByAppendAndNew :
    s8.config.legal = true ∧ ∃ t, execRequest ⟨0x86, 0, 0⟩ s8 = .next t ∧ t.wcur ≠ s8.wcur :=
  ⟨by decide, _, rfl, by decide⟩

/-- Offset 11 of `s8`, its last one bit below the cursor, goes with reset, with NEW and with a RESIZE of a store whose cursor
allows it; offset 12 becomes one with `APPEND 1, 1`. -/
theorem witness_OneBitsComeAndGoByRule :
    s8.store.bitAt 11 = some true ∧
    (∃ t, step (acting [.driveReset true]) = .next t ∧ t.store.bitAt 11 ≠ some true) ∧
    (∃ t, step (acting [.request ⟨0x1, 0, 16⟩ true]) = .next t ∧ t.store.bitAt 11 ≠ some true) ∧
    ((acting [.request ⟨0x2, 0, 1⟩ true]).withWcur 8).store.bitAt 11 = some true ∧
    (∃ t, step ((acting [.request ⟨0x2, 0, 1⟩ true]).withWcur 8) = .next t ∧ t.store.bitAt 11 ≠ some true) ∧
    s8.store.bitAt 12 ≠ some true ∧
    (∃ t, step (acting [.request ⟨0x16, 1, 0⟩ true]) = .next t ∧ t.store.bitAt 12 = some true) ∧
    (∃ t, step (acting [.request ⟨0x15, 1, 12⟩ true]) = .next t ∧ t.store.bitAt 12 = some true) :=
  ⟨by decide, ⟨_, rfl, by decide⟩, ⟨_, rfl, by decide⟩, by decide, ⟨_, rfl, by decide⟩, by decide, ⟨_, rfl, by decide⟩, _,
    rfl, by decide⟩

theorem witness_OnlyRequestsAndResetChangeS :
    ¬ (acting [.takeResponse]).resets ∧ (∀ r, ¬ (acting [.takeResponse]).accepts r) ∧
    (acting [.takeResponse]).host = [.takeResponse] ∧ (acting [.takeResponse]).rsp = none ∧
    ¬ (acting [.driveReset false]).resets ∧ (acting [.driveReset false]).host = [.driveReset false] ∧
    ¬ (held [.request get03 true]).resets ∧ (∀ r, ¬ (held [.request get03 true]).accepts r) := by
  refine ⟨?_, ?_, rfl, rfl, ?_, rfl, ?_, ?_⟩ <;>
    simp [State.resets, State.accepts, acting, held, s8, block, State.reset, State.resetWith, State.withHost, State.reqReady]

theorem witness_BitOffsetsAreMsbFirst : 15 < 8 * s8.store.len ∧ 8 * s8.store.len ≤ 16 := by decide

theorem witness_ShiftedExtractIsInPlaceMovedDown : 0x8000000000000001 < 2 ^ 64 ∧ 63 + 1 ≤ 64 := by decide

theorem witness_MostSignificantSetBitIsTheHighest : 2 ^ 63 ≠ 0 ∧ 2 ^ 63 < 2 ^ 64 := by decide

theorem witness_FieldTouchesBoundedBytes : 1 ≤ 64 := by decide

end Sys2Proof.Tests
end

/-! The statements about the state `S` (10_state.md): reset, the invariants, and what may change the latch, the cursor and
the bits of the store. First come facts the statements share: when a command succeeds, one equation of `step` per
action of the host, and the bits that are one after a change of the store. -/

namespace Sys2Proof.Machine

/-! ## When a command succeeds -/

/-- The length, fit and range conditions under which a command is not an error (60_exceptions.md R165 steps 3 to 5). -/
def State.Admits (s : State) : Instr → Prop
  | .new size => ceilBytes size.toNat ≤ s.config.maxBytes
  | .resize bytes => s.wcur.toNat ≤ 8 * bytes.toNat ∧ bytes.toNat ≤ s.config.maxBytes
  | .rawbyte index => index.toNat < s.store.len
  | .insert value start len =>
    (1 ≤ len.toNat ∧ len.toNat ≤ s.config.valueWidth.bits) ∧
      value.toNat < 2 ^ len.toNat ∧ ceilBytes (start.toNat + len.toNat) ≤ s.config.maxBytes
  | .append value len =>
    (1 ≤ len.toNat ∧ len.toNat ≤ s.config.valueWidth.bits) ∧
      value.toNat < 2 ^ len.toNat ∧ ceilBytes (s.wcur.toNat + len.toNat) ≤ s.config.maxBytes
  | .get start len =>
    (1 ≤ len.toNat ∧ len.toNat ≤ s.config.valueWidth.bits) ∧ start.toNat + len.toNat ≤ s.store.capacityBits
  | .getc cursor len =>
    (1 ≤ len.toNat ∧ len.toNat ≤ s.config.valueWidth.bits) ∧ cursor.toNat + len.toNat ≤ s.store.capacityBits
  | .capbytes => True
  | .sizebits => True

/-- If a result is a next state whose response carries OK, that state has the property. -/
def OnSuccess (P : State → Prop) (x : Result) : Prop :=
  ∀ t q, x = .next t → t.rsp = some q → q.code = 0x00#8 → P t

section
variable {P : State → Prop} {s u : State}

theorem OnSuccess.next (h : P u) : OnSuccess P (.next u) := by
  intro t q ht _ _
  cases ht
  exact h

theorem OnSuccess.of_code_ne {q : Response} (hq : u.rsp = some q) (hc : q.code ≠ 0x00#8) :
    OnSuccess P (.next u) := by
  intro t q' ht hq' hc'
  cases ht
  cases hq.symm.trans hq'
  exact absurd hc' hc

theorem OnSuccess.refused (next : Word) : OnSuccess P (.next (s.refuseFaulted next)) :=
  .of_code_ne rfl (by simp [Response.code, StatusCode.bits])

theorem OnSuccess.raised (e : CommandError) (next : Word) : OnSuccess P (.next (s.raise e next)) := by
  cases e with
  | recoverable e =>
    exact .of_code_ne rfl (by cases e <;> simp [Response.code, StatusCode.bits, CommandError.bits, RecoverableError.bits])
  | fatal e =>
    exact .of_code_ne rfl (by cases e <;> simp [Response.code, StatusCode.bits, CommandError.bits, FatalError.bits])

theorem OnSuccess.guarded {next : Word} {run : Result} (h : OnSuccess P run) :
    OnSuccess P (unlessFaulted s next run) := by
  cases hs : s.fault with
  | true =>
    rw [unlessFaulted_of_fault hs]
    exact .refused next
  | false =>
    rw [unlessFaulted_of_clear hs]
    exact h

theorem OnSuccess.fieldGuarded {len : LenField} {next : Word} {run : Result}
    (h : 1 ≤ len.toNat ∧ len.toNat ≤ s.config.valueWidth.bits → OnSuccess P run) :
    OnSuccess P (withLength s len next run) := by
  unfold withLength
  refine .guarded ?_
  split
  case isTrue hl => exact h ((lengthLegal_iff ..).mp hl)
  case isFalse => exact .raised _ _

theorem OnSuccess.write {value : Word} {start : Nat} {len : LenField} {w : Word}
    (h : value.toNat < 2 ^ len.toNat → ceilBytes (start + len.toNat) ≤ s.config.maxBytes →
      ∀ m : Memory, (s.store.wf = true → m.wf = true) →
        P (((s.withStore m).withWcur w).respond .ok (some (len.zeroExtend 64)) 0)) :
    OnSuccess P (writeField s value start len w) := by
  rcases writeCheck_cases s.config value.toNat start len.toNat with ⟨-, e⟩ | ⟨-, -, e⟩ | ⟨hfit, hroom, e⟩
  · exact writeField_of_error e w ▸ .raised _ _
  · exact writeField_of_error e w ▸ .raised _ _
  · obtain ⟨m, hm, -, hwf⟩ := writeField_of_ok e w
    exact hm ▸ .next (h hfit hroom m hwf)

theorem OnSuccess.read {start : Nat} {len : LenField} {ne ns : Word}
    (h : start + len.toNat ≤ s.store.capacityBits → ∀ v, P (s.respond .ok (some v) ns)) :
    OnSuccess P (readField s start len ne ns) := by
  rcases Nat.lt_or_ge s.store.capacityBits (start + len.toNat) with hout | hin
  · exact readField_of_out hout ne ns ▸ .raised _ _
  · obtain ⟨n, -, -, e⟩ := readField_of_in hin ne ns
    exact e ▸ .next (h hin _)

end

/-- A success meant that the command's conditions held, and it keeps the store's canonical form. -/
theorem exec_onSuccess (i : Instr) (s : State) :
    OnSuccess (fun t => s.Admits i ∧ (s.store.wf = true → t.store.wf = true)) (exec i s) := by
  cases i with
  | new size =>
    refine .guarded ?_
    split
    case isTrue => exact .raised _ _
    case isFalse h => exact .next ⟨Nat.le_of_not_lt h, fun _ => Memory.zeros_wf _⟩
  | resize bytes =>
    refine .guarded ?_
    split
    case isTrue => exact .raised _ _
    case isFalse h =>
      split
      case isTrue => exact .raised _ _
      case isFalse h' => exact .next ⟨⟨Nat.le_of_not_lt h, Nat.le_of_not_lt h'⟩, Memory.setLen_wf _⟩
  | rawbyte index =>
    refine .guarded ?_
    split
    case isTrue => exact .raised _ _
    case isFalse h =>
      have hlt : index.toNat < s.store.len := Nat.lt_of_not_le h
      rw [Memory.read_of_lt hlt]
      exact .next ⟨hlt, id⟩
  | capbytes => exact .guarded (.next ⟨trivial, id⟩)
  | insert value start len =>
    exact .fieldGuarded fun hl => .write fun hfit hroom m hwf => ⟨⟨hl, hfit, hroom⟩, hwf⟩
  | append value len =>
    exact .fieldGuarded fun hl => .write fun hfit hroom m hwf => ⟨⟨hl, hfit, hroom⟩, hwf⟩
  | get start len => exact .fieldGuarded fun hl => .read fun hin _ => ⟨⟨hl, hin⟩, id⟩
  | getc cursor len => exact .fieldGuarded fun hl => .read fun hin _ => ⟨⟨hl, hin⟩, id⟩
  | sizebits => exact .guarded (.next ⟨trivial, id⟩)

/-- Everything a request that ended in `t` did: `execRequest_completion` said of that state, and for a success also the
conditions that held and the canonical form. -/
theorem execRequest_ends {r : Request} {s t : State} (h : execRequest r s = .next t) :
    ∃ q, t.rsp = some q ∧ s.sameSurroundings t ∧ Ends r s t q ∧
      (q.code = 0x00#8 → ∀ i, decode r = .command i → s.Admits i ∧ (s.store.wf = true → t.store.wf = true)) := by
  obtain ⟨t', q, ht, hq, hsur, hends⟩ := execRequest_completion r s
  cases h.symm.trans ht
  refine ⟨q, hq, hsur, hends, fun hc i hd => ?_⟩
  exact exec_onSuccess i s t q (execRequest_of_command hd s ▸ h) hq hc

/-! ## One equation of `step` per action of the host -/

section
variable {s t : State} {rest : List HostEvent}

theorem step_of_rst (h : s.rst = true) : step s = .next (portUnderReset s) := by
  simp [step, portStep, h]

theorem step_of_idle (hr : s.rst = false) (hh : s.host = []) : step s = .next s := by
  simp [step, portStep, hr, hh]

theorem State.rst_of_reqReady (h : s.reqReady = true) : s.rst = false := by
  simp only [State.reqReady, Bool.and_eq_true, Bool.not_eq_true'] at h
  exact h.1

theorem step_of_request {r : Request} {takes : Bool} (hq : s.reqReady = true)
    (hh : s.host = .request r takes :: rest) : step s = transact r takes (s.withHost rest) := by
  simp [step, portStep, State.rst_of_reqReady hq, hh, hq]

theorem step_of_waiting {r : Request} {takes : Bool} (hr : s.rst = false) (hq : s.reqReady = false)
    (hh : s.host = .request r takes :: rest) : step s = .next s := by
  simp [step, portStep, hr, hh, hq]

theorem step_of_takeResponse (hr : s.rst = false) (hh : s.host = .takeResponse :: rest) :
    step s = .next (s.withHost rest).deliver := by
  simp [step, portStep, hr, hh]

theorem step_of_driveReset {level : Bool} (hr : s.rst = false) (hh : s.host = .driveReset level :: rest) :
    step s = .next (if level then ((s.withHost rest).withRst true).applyReset else s.withHost rest) := by
  simp [step, portStep, hr, hh]

theorem State.deliver_of_none (h : s.rsp = none) : s.deliver = s := by
  simp [State.deliver, h]

theorem transact_isNext (r : Request) (takes : Bool) (s : State) : ∃ t, transact r takes s = .next t := by
  obtain ⟨t, -, ht, -⟩ := execRequest_completion r s
  exact ⟨_, transact_of_next ht takes⟩

/-- No step stops the machine. -/
theorem step_isNext (s : State) : ∃ t, step s = .next t := by
  cases hr : s.rst with
  | true => exact ⟨_, step_of_rst hr⟩
  | false =>
    match hh : s.host with
    | [] => exact ⟨_, step_of_idle hr hh⟩
    | .request r takes :: rest =>
      cases hq : s.reqReady with
      | true => exact step_of_request hq hh ▸ transact_isNext ..
      | false => exact ⟨_, step_of_waiting hr hq hh⟩
    | .takeResponse :: rest => exact ⟨_, step_of_takeResponse hr hh⟩
    | .driveReset level :: rest => exact ⟨_, step_of_driveReset hr hh⟩

/-- A step that accepts a request ends with the parameters and `S` that executing it ends with. -/
theorem step_of_accepts {r : Request} (ha : s.accepts r) (h : step s = .next t) :
    ∃ rest u, execRequest r (s.withHost rest) = .next u ∧ u.sameS t ∧ t.config = u.config := by
  obtain ⟨hq, takes, rest, hh⟩ := ha
  obtain ⟨u, -, hu, -⟩ := execRequest_completion r (s.withHost rest)
  rw [step_of_request hq hh, transact_of_next hu] at h
  cases h
  refine ⟨rest, u, hu, ?_⟩
  cases takes <;> simp [State.sameS]

end

/-! ## The invariants -/

section
variable {s t : State} {r : Request}

/-- The invariants speak of `S` and the parameters only. -/
theorem State.Inv.of_sameS (h : s.Inv) (hS : s.sameS t) (hc : t.config = s.config) : t.Inv := by
  obtain ⟨hstore, hwcur, hfault, hfcode⟩ := hS
  exact
    { configLegal := hc ▸ h.configLegal
      storeWf := hstore ▸ h.storeWf
      cursorInCapacity := by rw [hstore, hwcur]; exact h.cursorInCapacity
      lenBounded := by rw [hstore, hc]; exact h.lenBounded
      clearCode := by rw [hfault, hfcode]; exact h.clearCode
      latchedCode := by rw [hfault, hfcode]; exact h.latchedCode }

theorem State.resetWith_inv {c : Config} (h : c.legal = true) : (State.resetWith c).Inv where
  configLegal := h
  storeWf := rfl
  cursorInCapacity := Nat.le_refl 0
  lenBounded := Nat.zero_le _
  clearCode _ := rfl
  latchedCode hf := Bool.noConfusion hf

/-- The cursor stays within capacity and the store within `MAX_BYTES` over every success. -/
theorem State.AfterSuccess.bounds {i : Instr} (he : s.AfterSuccess i t) (h : s.Inv) (ha : s.Admits i) :
    t.wcur.toNat ≤ t.store.capacityBits ∧ t.store.len ≤ s.config.maxBytes := by
  have hcur : s.wcur.toNat ≤ 8 * s.store.len := h.cursorInCapacity
  have hlen := h.lenBounded
  unfold Memory.capacityBits
  cases i with
  | new size =>
    obtain ⟨hstore, hwcur⟩ := he
    rw [hstore, hwcur]
    exact ⟨Nat.zero_le _, ha⟩
  | resize bytes =>
    obtain ⟨hstore, hwcur⟩ := he
    rw [hstore, hwcur]
    exact ha
  | insert value start len =>
    obtain ⟨hfield, hwcur⟩ := he
    obtain ⟨-, -, hroom⟩ := ha
    rw [hwcur, hfield.grown]
    omega
  | append value len =>
    obtain ⟨hfield, hwcur⟩ := he
    obtain ⟨-, -, hroom⟩ := ha
    have hle := le_ceilBytes (s.wcur.toNat + len.toNat)
    have hmod := Nat.mod_le (s.wcur.toNat + len.toNat) (2 ^ 64)
    rw [hwcur, hfield.grown, BitVec.toNat_ofNat]
    omega
  | rawbyte _ | capbytes | get _ _ | getc _ _ | sizebits =>
    obtain ⟨hstore, hwcur⟩ := he
    rw [hstore, hwcur]
    exact ⟨hcur, hlen⟩

theorem State.Inv.of_execRequest (h : s.Inv) (hx : execRequest r s = .next t) : t.Inv := by
  obtain ⟨q, -, ⟨hconf, -⟩, hends, hok⟩ := execRequest_ends hx
  cases hends with
  | unchanged hS => exact h.of_sameS hS hconf
  | fatal hs hstore hwcur hfault hfcode hcode =>
    exact
      { configLegal := hconf ▸ h.configLegal
        storeWf := hstore ▸ h.storeWf
        cursorInCapacity := by rw [hstore, hwcur]; exact h.cursorInCapacity
        lenBounded := by rw [hstore, hconf]; exact h.lenBounded
        clearCode := fun hf => by simp [hfault] at hf
        latchedCode := fun _ => hfcode ▸ hcode }
  | ok i hd hc hs hfault hfcode he =>
    obtain ⟨hadm, hwf⟩ := hok hc i hd
    obtain ⟨hcur, hlen⟩ := he.bounds h hadm
    exact
      { configLegal := hconf ▸ h.configLegal
        storeWf := hwf h.storeWf
        cursorInCapacity := hcur
        lenBounded := hconf ▸ hlen
        clearCode := by rw [hfault, hfcode]; exact h.clearCode
        latchedCode := by rw [hfault, hfcode]; exact h.latchedCode }

theorem State.Inv.of_step (h : s.Inv) (hx : step s = .next t) : t.Inv := by
  rcases step_cases hx with ⟨-, hS, hc⟩ | ⟨-, r, -, ha, -⟩ | ⟨-, -, hS, hc, -⟩
  · exact (State.resetWith_inv h.configLegal).of_sameS hS hc
  · obtain ⟨rest, u, hu, hS, hc⟩ := step_of_accepts ha hx
    have hrest : (s.withHost rest).Inv := h.of_sameS ⟨rfl, rfl, rfl, rfl⟩ rfl
    exact (hrest.of_execRequest hu).of_sameS hS hc
  · exact h.of_sameS hS hc

end

/-! ## The bits that are one -/

theorem Memory.byteIndex_lt_of_bitAt {m : Memory} {p : Nat} {b : Bool} (h : m.bitAt p = some b) :
    byteIndex p < m.len := by
  have hp := Memory.bitAt_isSome m p
  rw [h, Option.isSome_some, eq_comm, decide_eq_true_eq] at hp
  unfold Memory.capacityBits at hp
  unfold byteIndex
  omega

theorem Memory.zeros_bitAt_ne_true (n p : Nat) : (Memory.zeros n).bitAt p ≠ some true := by
  unfold Memory.bitAt
  rw [Memory.zeros_read]
  split <;> simp

/-- A change of length keeps the one bits of the bytes it keeps and brings no other (40_backing_store.md R81, R84). -/
theorem Memory.setLen_bitAt_eq_true_iff (m : Memory) (n p : Nat) :
    (m.setLen n).bitAt p = some true ↔ byteIndex p < n ∧ m.bitAt p = some true := by
  unfold Memory.bitAt
  rw [Memory.setLen_read]
  by_cases hn : byteIndex p < n
  · by_cases hm : byteIndex p < m.len
    · simp [hn, hm, Memory.read_of_lt hm]
    · simp [hn, hm, Memory.read_of_ge (Nat.le_of_not_lt hm)]
  · simp [hn]

theorem fieldBit_lt {v : Word} {start len p : Nat} (h : fieldBit v start len p = true) : p < start + len := by
  simp only [fieldBit, Bool.and_eq_true, decide_eq_true_eq] at h
  exact h.1.2

/-- A successful write keeps every one bit and adds those of its field (20_memory.md R49). -/
theorem Memory.FieldWritten.bitAt_eq_true_iff {m m' : Memory} {v : Word} {start len : Nat}
    (h : m.FieldWritten m' v start len) (p : Nat) :
    m'.bitAt p = some true ↔ m.bitAt p = some true ∨ fieldBit v start len p = true := by
  have hor : p < m'.capacityBits →
      (m'.bitAt p = some true ↔ m.bitAt p = some true ∨ fieldBit v start len p = true) := by
    intro hp
    rw [h.bits p hp]
    cases m.bitAt p <;> simp
  have hgrown := h.grown
  unfold Memory.capacityBits at hor
  constructor
  · intro h1
    have := Memory.byteIndex_lt_of_bitAt h1
    exact (hor (by unfold byteIndex at this; omega)).mp h1
  · rintro (h1 | h1)
    · have := Memory.byteIndex_lt_of_bitAt h1
      exact (hor (by unfold byteIndex at this; omega)).mpr (.inl h1)
    · have := fieldBit_lt h1
      have := le_ceilBytes (start + len)
      exact (hor (by omega)).mpr (.inr h1)

section
variable {s t : State} {i : Instr} {p : Nat}

theorem State.AfterSuccess.one_bit_lost (he : s.AfterSuccess i t) (hs : s.store.bitAt p = some true)
    (ht : t.store.bitAt p ≠ some true) :
    i.opcode = .new ∨ ∃ n : Word, i = .resize n ∧ n.toNat < s.store.len ∧ n.toNat ≤ byteIndex p := by
  cases i with
  | new size => exact .inl rfl
  | resize bytes =>
    have hle : bytes.toNat ≤ byteIndex p := by
      by_contra hlt
      rw [he.1] at ht
      exact ht <| (Memory.setLen_bitAt_eq_true_iff ..).mpr ⟨Nat.lt_of_not_le hlt, hs⟩
    exact .inr ⟨bytes, rfl, Nat.lt_of_le_of_lt hle (Memory.byteIndex_lt_of_bitAt hs), hle⟩
  | insert value start len => exact absurd ((he.1.bitAt_eq_true_iff p).mpr (.inl hs)) ht
  | append value len => exact absurd ((he.1.bitAt_eq_true_iff p).mpr (.inl hs)) ht
  | rawbyte _ | capbytes | get _ _ | getc _ _ | sizebits => exact absurd (he.1 ▸ hs) ht

theorem State.AfterSuccess.one_bit_gained (he : s.AfterSuccess i t) (hs : s.store.bitAt p ≠ some true)
    (ht : t.store.bitAt p = some true) :
    (∃ (v start : Word) (len : LenField), i = .insert v start len ∧ fieldBit v start.toNat len.toNat p = true) ∨
      ∃ (v : Word) (len : LenField), i = .append v len ∧ fieldBit v s.wcur.toNat len.toNat p = true := by
  cases i with
  | new size => exact absurd (he.1 ▸ ht) (Memory.zeros_bitAt_ne_true _ p)
  | resize bytes =>
    rw [he.1, Memory.setLen_bitAt_eq_true_iff] at ht
    exact absurd ht.2 hs
  | insert value start len =>
    exact .inl ⟨value, start, len, rfl, ((he.1.bitAt_eq_true_iff p).mp ht).resolve_left hs⟩
  | append value len => exact .inr ⟨value, len, rfl, ((he.1.bitAt_eq_true_iff p).mp ht).resolve_left hs⟩
  | rawbyte _ | capbytes | get _ _ | getc _ _ | sizebits => exact absurd (he.1 ▸ ht) hs

/-- A step after which the store's bits differ either reset the block or accepted a request that succeeded. -/
theorem step_of_bitAt_ne (h : step s = .next t) (hne : t.store.bitAt p ≠ s.store.bitAt p) :
    (s.resets ∧ t.store = Memory.zeros 0) ∨ ¬ s.resets ∧ ∃ r i q, s.accepts r ∧ decode r = .command i ∧
      s.answers t q ∧ q.code = 0x00#8 ∧ s.AfterSuccess i t := by
  rcases step_cases h with ⟨hr, ⟨hstore, -⟩, -⟩ | ⟨hr, r, q, ha, hans, -, -, hends⟩ | ⟨-, -, ⟨hstore, -⟩, -⟩
  · exact .inl ⟨hr, hstore⟩
  · cases hends with
    | unchanged hS => exact absurd (by rw [hS.1]) hne
    | fatal _ hstore => exact absurd (by rw [hstore]) hne
    | ok i hd hc _ _ _ he => exact .inr ⟨hr, r, i, q, ha, hd, hans, hc, he⟩
  · exact absurd (by rw [hstore]) hne

end

/-! ## The latch and the cursor -/

section
variable {s t : State} {r : Request} {q : Response}

/-- Only a fatal error sets the latch, with the code it answers (10_state.md R24, R25). -/
theorem Ends.latch_set (h : Ends r s t q) (hs : s.fault = false) (ht : t.fault = true) :
    isFatalCode q.code = true ∧ t.fcode = q.code := by
  cases h with
  | unchanged hS =>
    obtain ⟨-, -, hfault, -⟩ := hS
    simp [hfault, hs] at ht
  | fatal _ _ _ _ hk hf => exact ⟨hf, hk⟩
  | ok _ _ _ _ hfault => simp [hfault, hs] at ht

/-- No request clears the latch. -/
theorem Ends.latch_kept (h : Ends r s t q) (hs : s.fault = true) : t.fault = true := by
  cases h with
  | unchanged hS =>
    obtain ⟨-, -, hfault, -⟩ := hS
    exact hfault.trans hs
  | fatal _ _ _ ht => exact ht
  | ok _ _ _ _ hfault => exact hfault.trans hs

/-- A request that changes the fault code sets the latch. -/
theorem Ends.fcode_changed (h : Ends r s t q) (hne : t.fcode ≠ s.fcode) : s.fault = false ∧ t.fault = true := by
  cases h with
  | unchanged hS =>
    obtain ⟨-, -, -, hfcode⟩ := hS
    exact absurd hfcode hne
  | fatal hs _ _ ht => exact ⟨hs, ht⟩
  | ok _ _ _ _ _ hfcode => exact absurd hfcode hne

/-- APPEND's sum of the cursor and the length is exact where the parameters are legal (41_bit_arithmetic.md R110). -/
theorem State.Admits.append_cursor {v : Word} {len : LenField} (h : s.Admits (.append v len))
    (hc : s.config.legal = true) :
    (BitVec.ofNat 64 (s.wcur.toNat + len.toNat)).toNat = s.wcur.toNat + len.toNat := by
  obtain ⟨-, -, hroom⟩ := h
  rw [ceilBytes_le_iff] at hroom
  simp only [Config.legal, Bool.and_eq_true, decide_eq_true_eq] at hc
  rw [BitVec.toNat_ofNat, Nat.mod_eq_of_lt (by omega)]

theorem State.AfterSuccess.cursor_changed {i : Instr} (he : s.AfterSuccess i t) (ha : s.Admits i)
    (hc : s.config.legal = true) (hne : t.wcur ≠ s.wcur) :
    i.opcode = .append ∧ s.wcur.toNat < t.wcur.toNat ∨ i.opcode = .new ∧ t.wcur = 0 := by
  cases i with
  | new size => exact .inr ⟨rfl, he.2⟩
  | append value len =>
    have hsum := ha.append_cursor hc
    obtain ⟨⟨hpos, -⟩, -⟩ := ha
    refine .inl ⟨rfl, ?_⟩
    rw [he.2, hsum]
    omega
  | resize _ | insert _ _ _ | rawbyte _ | capbytes | get _ _ | getc _ _ | sizebits => exact absurd he.2 hne

end

/-! ## The statements -/

/-- Settles O10: the invariants hold at reset and every end of a request keeps them, a success because its conditions
held. -/
theorem stepKeepsTheInvariants : Obligations.StepKeepsTheInvariants :=
  fun _ _ h hx => h.of_step hx

/-- Settles O42, over the ends of a request and the cases of a step. -/
theorem onlyFatalErrorsSetTheLatch : Obligations.OnlyFatalErrorsSetTheLatch := by
  refine ⟨?_, ?_, ?_, ?_⟩
  · intro r s t h hs ht
    obtain ⟨q, hq, -, hends, -⟩ := execRequest_ends h
    exact ⟨q, hq, hends.latch_set hs ht⟩
  · intro s t h hs ht
    rcases step_cases h with ⟨-, ⟨-, -, hf, -⟩, -⟩ | ⟨hr, r, q, ha, hans, -, -, hends⟩ | ⟨-, -, ⟨-, -, hf, -⟩, -⟩
    · cases ht.symm.trans hf
    · exact ⟨hr, r, q, ha, hans, hends.latch_set hs ht⟩
    · simp [hf, hs] at ht
  · intro s t h hs ht
    rcases step_cases h with ⟨hr, -⟩ | ⟨-, r, q, -, -, -, -, hends⟩ | ⟨-, -, ⟨-, -, hf, -⟩, -⟩
    · exact hr
    · simp [hends.latch_kept hs] at ht
    · simp [hf, hs] at ht
  · intro s t h hne
    rcases step_cases h with ⟨hr, -⟩ | ⟨-, r, q, -, -, -, -, hends⟩ | ⟨-, -, ⟨-, -, -, hk⟩, -⟩
    · exact .inl hr
    · exact .inr (hends.fcode_changed hne)
    · exact absurd hk hne

/-- Settles O47: an error leaves the cursor, and of the successes only NEW and APPEND write it. -/
theorem cursorWrittenOnlyByAppendAndNew : Obligations.CursorWrittenOnlyByAppendAndNew := by
  intro r s t hlegal h hne
  obtain ⟨q, hq, -, hends, hok⟩ := execRequest_ends h
  cases hends with
  | unchanged hS =>
    obtain ⟨-, hwcur, -⟩ := hS
    exact absurd hwcur hne
  | fatal _ _ hwcur => exact absurd hwcur hne
  | ok i hd hc _ _ _ he => exact ⟨i, q, hd, hq, hc, he.cursor_changed (hok hc i hd).1 hlegal hne⟩

/-- Settles O52, from what each success does to the one bits of the store. -/
theorem oneBitsComeAndGoByRule : Obligations.OneBitsComeAndGoByRule := by
  constructor
  · intro s t p h hs ht
    rcases step_of_bitAt_ne h (fun e => ht (e.trans hs)) with ⟨hr, -⟩ | ⟨-, r, i, q, ha, hd, hans, hc, he⟩
    · exact .inl hr
    · exact .inr ⟨r, i, q, ha, hd, hans, hc, he.one_bit_lost hs ht⟩
  · intro s t p h hs ht
    rcases step_of_bitAt_ne h (fun e => hs (e.symm.trans ht)) with ⟨-, hstore⟩ | ⟨hr, r, i, q, ha, hd, hans, hc, he⟩
    · exact absurd (hstore ▸ ht) (Memory.zeros_bitAt_ne_true 0 p)
    · exact ⟨hr, r, i, q, ha, hd, hans, hc, he.one_bit_gained hs ht⟩

/-- Settles O8: each value is the one `State.resetWith` writes, and no index is below the length 0. -/
theorem resetValuesAreTheSpecs : Obligations.ResetValuesAreTheSpecs :=
  ⟨fun _ => ⟨rfl, rfl, fun i => Memory.read_of_ge (Nat.zero_le i), rfl, rfl, rfl⟩, rfl⟩

/-- Settles O9; the standard parameters are legal. -/
theorem resetSatisfiesTheInvariants : Obligations.ResetSatisfiesTheInvariants :=
  ⟨State.resetWith_inv (by decide), fun _ => State.resetWith_inv⟩

/-- Settles O53: the cases of a step that is no reset, and the equations of the two actions that are only used up. -/
theorem onlyRequestsAndResetChangeS : Obligations.OnlyRequestsAndResetChangeS := by
  intro s hn
  have hr : s.rst = false := Bool.eq_false_of_not_eq_true fun h => hn (.inl h)
  refine ⟨?_, ?_, ?_⟩
  · intro hna
    obtain ⟨t, h⟩ := step_isNext s
    rcases step_cases h with ⟨hreset, -⟩ | ⟨-, r, -, ha, -⟩ | ⟨-, -, hS, hc, hrst⟩
    · exact absurd hreset hn
    · exact absurd ha (hna r)
    · exact ⟨t, h, hS, hc, hrst⟩
  · intro rest hh hq
    rw [step_of_takeResponse hr hh, State.deliver_of_none (s := s.withHost rest) hq]
  · intro rest hh
    exact step_of_driveReset hr hh

end Sys2Proof.Machine

/-! The statements about the store as memory (20_memory.md): the bits of a byte, the field view beside the byte view, reads
that change nothing, and writes that only set bits. First come facts they share: a command is what its encoding decodes
to, what holds of a command that succeeded, and that an answer depends on `S` and the parameters alone. -/

namespace Sys2Proof.Machine

/-! ## The end of a command -/

theorem cmdLen_cmdWord (o : Opcode) (len : LenField) : cmdLen (cmdWord o len) = len := by
  apply BitVec.eq_of_getLsbD_eq
  intro k hk
  rw [cmdLen, cmdWord, BitVec.getLsbD_extractLsb', BitVec.getLsbD_append, BitVec.getLsbD_append]
  simp [hk]

theorem decodeOpcode_encode (i : Instr) : decodeOpcode (encode i).cmd = some i.opcode := by
  cases i with
  | new size => exact Laws.OwnRow.new size
  | resize bytes => exact Laws.OwnRow.resize bytes
  | rawbyte index => exact Laws.OwnRow.rawbyte index
  | capbytes => exact Laws.OwnRow.capbytes
  | insert value start len => exact Laws.OwnRow.insert value start len
  | append value len => exact Laws.OwnRow.append value len
  | get start len => exact Laws.OwnRow.get start len
  | getc cursor len => exact Laws.OwnRow.getc cursor len
  | sizebits => exact Laws.OwnRow.sizebits

/-- Every command is what some request decodes to, so the cases of `exec_completion` are those of every command. -/
theorem decode_encode (i : Instr) : decode (encode i) = .command i := by
  rw [decode, decodeOpcode_encode]
  cases i <;> simp [Instr.opcode, Opcode.command, encode, cmdLen_cmdWord]

section
variable {s t : State} {i : Instr} {q : Response}

/-- `exec_completion` said of a command that ended in `t`. -/
theorem exec_ends (h : exec i s = .next t) :
    ∃ q, t.rsp = some q ∧ s.sameSurroundings t ∧ Ends (encode i) s t q := by
  obtain ⟨t', q, h', hq, hsur, hends⟩ := exec_completion (decode_encode i) s
  cases h.symm.trans h'
  exact ⟨q, hq, hsur, hends⟩

/-- An error leaves the store and the cursor; a success does to them what its command does. -/
theorem Ends.store_wcur (h : Ends (encode i) s t q) :
    (t.store = s.store ∧ t.wcur = s.wcur) ∨ s.AfterSuccess i t := by
  cases h with
  | unchanged hS =>
    obtain ⟨hstore, hwcur, -⟩ := hS
    exact .inl ⟨hstore, hwcur⟩
  | fatal _ hstore hwcur => exact .inl ⟨hstore, hwcur⟩
  | ok j hd _ _ _ _ he =>
    cases (decode_encode i).symm.trans hd
    exact .inr he

/-- An end without a fatal code leaves the latch. -/
theorem Ends.latch_of_not_fatal {r : Request} (h : Ends r s t q) (hq : isFatalCode q.code = false) :
    t.fault = s.fault ∧ t.fcode = s.fcode := by
  cases h with
  | unchanged hS =>
    obtain ⟨-, -, hfault, hfcode⟩ := hS
    exact ⟨hfault, hfcode⟩
  | fatal _ _ _ _ _ hf => simp [hq] at hf
  | ok _ _ _ _ hfault hfcode => exact ⟨hfault, hfcode⟩

theorem okResponse_code (fcode : BitVec 8) (res : Option Word) (next : Word) :
    (okResponse fcode res next).code = 0x00#8 := by
  simp [okResponse, Response.code]

/-- Everything that holds of a command that answered OK. -/
theorem exec_succeeded {res : Option Word} {next : Word} {k : BitVec 8} (h : exec i s = .next t)
    (hq : t.rsp = some (okResponse k res next)) :
    s.fault = false ∧ t.fault = s.fault ∧ t.fcode = s.fcode ∧ t.config = s.config ∧ s.Admits i ∧
      (s.store.wf = true → t.store.wf = true) ∧ s.AfterSuccess i t := by
  have hcode := okResponse_code k res next
  obtain ⟨hadm, hwf⟩ := exec_onSuccess i s t _ h hq hcode
  obtain ⟨q, hq', ⟨hconf, -⟩, hends⟩ := exec_ends h
  cases hq.symm.trans hq'
  cases hends with
  | unchanged _ hc => exact absurd hcode hc
  | fatal _ _ _ _ _ hf => simp [hcode, isFatalCode] at hf
  | ok j hd _ hs hfault hfcode he =>
    cases (decode_encode i).symm.trans hd
    exact ⟨hs, hfault, hfcode, hconf, hadm, hwf, he⟩

theorem State.respond_completesOk (hs : s.fault = false) (res : Option Word) (next : Word) :
    s.CompletesOk (s.respond .ok res next) res next :=
  ⟨rfl, rfl, ⟨rfl, rfl, rfl, rfl⟩, by simp [okResponse, StatusCode.bits, hs]⟩

end

/-! ## The answer depends on `S` and the parameters alone -/

/-- Both results are next states, with the same response. -/
def SameAnswer (x y : Result) : Prop := ∃ t u, x = .next t ∧ y = .next u ∧ u.rsp = t.rsp

theorem SameAnswer.respond {s t : State} (hf : t.fault = s.fault) (hk : t.fcode = s.fcode) (c : StatusCode)
    (res : Option Word) (next : Word) :
    SameAnswer (.next (s.respond c res next)) (.next (t.respond c res next)) :=
  ⟨_, _, rfl, rfl, by simp [hf, hk]⟩

section
variable {s t : State} (hS : s.sameS t) (hc : t.config = s.config)
include hS

theorem SameAnswer.raise (e : CommandError) (next : Word) :
    SameAnswer (.next (s.raise e next)) (.next (t.raise e next)) := by
  obtain ⟨-, -, hf, hk⟩ := hS
  cases e with
  | recoverable e => exact .respond hf hk ..
  | fatal e => exact .respond (s := s.latchFault e) (t := t.latchFault e) rfl rfl ..

theorem SameAnswer.guarded {next : Word} {x y : Result} (h : SameAnswer x y) :
    SameAnswer (unlessFaulted s next x) (unlessFaulted t next y) := by
  obtain ⟨-, -, hf, hk⟩ := hS
  cases hs : s.fault with
  | true =>
    rw [unlessFaulted_of_fault hs, unlessFaulted_of_fault (hf.trans hs)]
    exact .respond hf hk ..
  | false => rwa [unlessFaulted_of_clear hs, unlessFaulted_of_clear (hf.trans hs)]

theorem SameAnswer.read (start : Nat) (len : LenField) (ne ns : Word) :
    SameAnswer (readField s start len ne ns) (readField t start len ne ns) := by
  obtain ⟨hstore, -, hf, hk⟩ := id hS
  rcases Nat.lt_or_ge s.store.capacityBits (start + len.toNat) with h | h
  · rw [readField_of_out h, readField_of_out (hstore ▸ h)]
    exact .raise hS ..
  · obtain ⟨n, hn, -, e⟩ := readField_of_in h ne ns
    obtain ⟨n', hn', -, e'⟩ := readField_of_in (s := t) (hstore ▸ h) ne ns
    cases hn.symm.trans (hstore ▸ hn')
    rw [e, e']
    exact .respond hf hk ..

include hc

theorem SameAnswer.fieldGuarded {len : LenField} {next : Word} {x y : Result} (h : SameAnswer x y) :
    SameAnswer (withLength s len next x) (withLength t len next y) := by
  unfold withLength
  rw [hc]
  refine .guarded hS ?_
  split
  · exact h
  · exact .raise hS ..

theorem SameAnswer.write (value : Word) (start : Nat) (len : LenField) (w : Word) :
    SameAnswer (writeField s value start len w) (writeField t value start len w) := by
  cases hw : writeCheck s.config value.toNat start len.toNat with
  | some e =>
    rw [writeField_of_error hw, writeField_of_error (hc ▸ hw)]
    exact .raise hS ..
  | none =>
    obtain ⟨m, e, -⟩ := writeField_of_ok hw w
    obtain ⟨m', e', -⟩ := writeField_of_ok (s := t) (hc ▸ hw) w
    obtain ⟨-, -, hf, hk⟩ := hS
    rw [e, e']
    exact .respond (s := (s.withStore m).withWcur w) (t := (t.withStore m').withWcur w) hf hk ..

/-- Two states with one `S` and one set of parameters answer a command alike. -/
theorem exec_sameAnswer (i : Instr) : SameAnswer (exec i s) (exec i t) := by
  obtain ⟨hstore, hwcur, hf, hk⟩ := id hS
  cases i with
  | new size =>
    refine .guarded hS ?_
    rw [hc]
    split
    · exact .raise hS ..
    · exact .respond (s := (s.withStore (Memory.zeros (ceilBytes size.toNat))).withWcur 0)
        (t := (t.withStore (Memory.zeros (ceilBytes size.toNat))).withWcur 0) hf hk ..
  | resize bytes =>
    refine .guarded hS ?_
    rw [hc, hwcur]
    split
    · exact .raise hS ..
    split
    · exact .raise hS ..
    · exact .respond (s := s.withStore (s.store.setLen bytes.toNat))
        (t := t.withStore (t.store.setLen bytes.toNat)) hf hk ..
  | rawbyte index =>
    refine .guarded hS ?_
    rw [hstore]
    split
    case isTrue => exact .raise hS ..
    case isFalse h =>
      rw [Memory.read_of_lt (Nat.lt_of_not_le h)]
      exact .respond hf hk ..
  | capbytes => exact .guarded hS (hstore ▸ .respond hf hk ..)
  | insert value start len => exact .fieldGuarded hS hc (hwcur ▸ .write hS hc ..)
  | append value len => exact .fieldGuarded hS hc (hwcur ▸ .write hS hc ..)
  | get start len => exact .fieldGuarded hS hc (.read hS ..)
  | getc cursor len => exact .fieldGuarded hS hc (.read hS ..)
  | sizebits => exact .guarded hS (hwcur ▸ .respond hf hk ..)

end

/-! ## Bits and bytes -/

theorem Memory.bitAt_of_ge {m : Memory} {p : Nat} (h : m.capacityBits ≤ p) : m.bitAt p = none := by
  rw [← Option.isNone_iff_eq_none, ← Option.not_isSome, Memory.bitAt_isSome]
  simpa using h

/-- Bit `k` of byte `i` of the store, counted from the most significant (20_memory.md R41). -/
theorem Memory.bitAt_of_read {m : Memory} {i k : Nat} {b : Byte} (h : m.read i = some b) (hk : k < 8) :
    m.bitAt (8 * i + k) = some (b.getLsbD (7 - k)) := by
  have hi : byteIndex (8 * i + k) = i := by unfold byteIndex; omega
  have hb : bitInByte (8 * i + k) = 7 - k := by unfold bitInByte bitOffsetInByte; omega
  rw [Memory.bitAt, hi, hb, h, Option.map_some]

theorem Memory.lt_of_read {m : Memory} {i : Nat} {b : Byte} (h : m.read i = some b) : i < m.len := by
  have := Memory.read_isSome m i
  simpa [h] using this

/-- The field of a byte's bits is the byte (20_memory.md R44). -/
theorem Memory.unpack_byte {m : Memory} {i : Nat} {b : Byte} (h : m.read i = some b) :
    m.unpack (8 * i) 8 = some b.toNat := by
  have hi := Memory.lt_of_read h
  refine Memory.unpack_eq_of_bits (by unfold Memory.capacityBits; omega) b.isLt fun k hk => ?_
  rw [Memory.bitAt_of_read h hk, BitVec.testBit_toNat]

/-- The field of two bytes' bits is the two bytes, the lower index the more significant (20_memory.md R44). -/
theorem Memory.unpack_two_bytes {m : Memory} {i : Nat} {a b : Byte} (ha : m.read i = some a)
    (hb : m.read (i + 1) = some b) : m.unpack (8 * i) 16 = some (a ++ b).toNat := by
  have hi := Memory.lt_of_read hb
  refine Memory.unpack_eq_of_bits (by unfold Memory.capacityBits; omega) (a ++ b).isLt fun k hk => ?_
  rw [BitVec.testBit_toNat, BitVec.getLsbD_append]
  split
  case isTrue h =>
    have hp : 8 * i + k = 8 * (i + 1) + (k - 8) := by omega
    have hbit : 7 - (k - 8) = 16 - 1 - k := by omega
    rw [hp, Memory.bitAt_of_read hb (by omega), hbit]
  case isFalse h =>
    have hbit : 7 - k = 16 - 1 - k - 8 := by omega
    rw [Memory.bitAt_of_read ha (by omega), hbit]

theorem zeroExtend_append_bytes (a b : Byte) :
    (a ++ b).zeroExtend 64 = a.zeroExtend 64 <<< 8 ||| b.zeroExtend 64 := by
  apply BitVec.eq_of_getLsbD_eq
  intro k hk
  rw [BitVec.getLsbD_setWidth, BitVec.getLsbD_append, BitVec.getLsbD_or, BitVec.getLsbD_shiftLeft,
    BitVec.getLsbD_setWidth, BitVec.getLsbD_setWidth]
  by_cases h : k < 8
  · simp [h, hk]
  · have hb := BitVec.getLsbD_of_ge b k (Nat.le_of_not_lt h)
    simp [h, hk, hb, Nat.lt_of_le_of_lt (Nat.sub_le k 8) hk]

section
variable {s : State} (hs : s.fault = false)
include hs

/-- A GET within capacity answers the field (43_read_path.md R142). -/
theorem exec_get_of_unpack {start : Word} {len : LenField} {n : Nat} (h1 : 1 ≤ len.toNat)
    (hW : len.toNat ≤ s.config.valueWidth.bits) (hin : start.toNat + len.toNat ≤ s.store.capacityBits)
    (hn : s.store.unpack start.toNat len.toNat = some n) :
    exec (.get start len) s = .next (s.respond .ok (some (BitVec.ofNat 64 n)) 0) := by
  obtain ⟨n', hn', -, e⟩ := readField_of_in hin 0 0
  cases hn.symm.trans hn'
  exact (withLength_of_legal hs h1 hW 0 _).trans e

/-- A RAWBYTE within the store answers the byte (40_backing_store.md R85). -/
theorem exec_rawbyte_of_read {index : Word} {b : Byte} (h : s.store.read index.toNat = some b) :
    exec (.rawbyte index) s = .next (s.respond .ok (some (b.zeroExtend 64)) 0) := by
  refine (unlessFaulted_of_clear hs 0 _).trans ?_
  rw [if_neg (Nat.not_le_of_lt (Memory.lt_of_read h)), h]

end

/-! ## Writing a field twice -/

/-- A field already written is not written again: the second write leaves the store as it is (20_memory.md R49). -/
theorem Memory.FieldWritten.again {m m' m'' : Memory} {v : Word} {start len : Nat}
    (h : m.FieldWritten m' v start len) (h' : m'.FieldWritten m'' v start len) (hw : m'.wf = true)
    (hw' : m''.wf = true) : m'' = m' := by
  have hlen : m''.len = m'.len := by rw [h'.grown, h.grown]; omega
  refine Memory.ext_of_read hw' hw hlen (Memory.read_ext_of_bitAt hlen fun p => ?_)
  have hcap : m''.capacityBits = m'.capacityBits := by rw [Memory.capacityBits, hlen, Memory.capacityBits]
  rcases Nat.lt_or_ge p m'.capacityBits with hp | hp
  · rw [h'.bits p (hcap ▸ hp), h.bits p hp]
    simp
  · rw [Memory.bitAt_of_ge hp, Memory.bitAt_of_ge (hcap ▸ hp)]

/-! ## The statements -/

/-- Settles O26: each end of a write keeps the one bits, a field written twice is written once, and the length of a
successful APPEND is at least 1. -/
theorem writesOnlySetBitsAndInsertIsIdempotent : Obligations.WritesOnlySetBitsAndInsertIsIdempotent := by
  refine ⟨?_, ?_, ?_⟩
  · intro i s t p hi h hbit
    obtain ⟨q, -, -, hends⟩ := exec_ends h
    rcases hends.store_wcur with ⟨hstore, -⟩ | he
    · rwa [hstore]
    · cases i with
      | insert value start len => exact (he.1.bitAt_eq_true_iff p).mpr (.inl hbit)
      | append value len => exact (he.1.bitAt_eq_true_iff p).mpr (.inl hbit)
      | new _ | resize _ | rawbyte _ | capbytes | get _ _ | getc _ _ | sizebits => simp [Instr.opcode] at hi
  · intro v start len s t hinv h hq
    obtain ⟨hs, hfault, hfcode, hconf, ⟨⟨h1, hW⟩, hfit, hroom⟩, hwf, hfield, -⟩ := exec_succeeded h hq
    have ht : t.fault = false := hfault.trans hs
    have hcheck := (writeCheck_eq_none_iff t.config v.toNat start.toNat len.toNat).mpr ⟨hfit, hconf ▸ hroom⟩
    obtain ⟨m, e, hagain, hwf'⟩ := writeField_of_ok hcheck t.wcur
    have htwf := hwf hinv.storeWf
    have hm : m = t.store := hfield.again hagain htwf (hwf' htwf)
    refine ⟨_, (withLength_of_legal ht h1 (hconf ▸ hW) 0 _).trans e, ⟨hm, rfl, rfl, rfl⟩, ?_⟩
    simp [hq, okResponse, StatusCode.bits, ht, hfcode]
  · intro v len s t hinv h hq
    obtain ⟨-, -, -, -, hadm, -, -, hwcur⟩ := exec_succeeded h hq
    have hsum := hadm.append_cursor hinv.configLegal
    obtain ⟨⟨h1, -⟩, -⟩ := hadm
    rw [hwcur, hsum]
    omega

/-- Settles O34: the field of one byte's bits is that byte, and that of two bytes' bits is the two. -/
theorem fieldAndByteViewsAgree : Obligations.FieldAndByteViewsAgree := by
  intro i s hs hi
  have hstart : (BitVec.ofNat 64 (8 * i)).toNat = 8 * i := by rw [BitVec.toNat_ofNat]; omega
  constructor
  · intro hlt
    obtain ⟨b, hread⟩ : ∃ b, s.store.read i = some b := ⟨_, Memory.read_of_lt hlt⟩
    have hindex : (BitVec.ofNat 64 i).toNat = i := by rw [BitVec.toNat_ofNat]; omega
    have hW : 8 ≤ s.config.valueWidth.bits := by cases s.config.valueWidth <;> decide
    have hget := exec_get_of_unpack hs (start := BitVec.ofNat 64 (8 * i)) (len := 8) (by decide) hW
      (by rw [hstart, Memory.capacityBits]; simp; omega) (by rw [hstart]; exact Memory.unpack_byte hread)
    have hraw := exec_rawbyte_of_read hs (index := BitVec.ofNat 64 i) (hindex.symm ▸ hread)
    exact ⟨_, _, hget, hraw, by rw [BitVec.ofNat_toNat]⟩
  · intro hlt hW
    have ha := Memory.read_of_lt (Nat.lt_of_succ_lt hlt)
    have hb := Memory.read_of_lt hlt
    have hget := exec_get_of_unpack hs (start := BitVec.ofNat 64 (8 * i)) (len := 16) (by decide) hW
      (by rw [hstart, Memory.capacityBits]; simp; omega) (by rw [hstart]; exact Memory.unpack_two_bytes ha hb)
    refine ⟨_, _, _, hget, ha, hb, ?_⟩
    rw [← zeroExtend_append_bytes, BitVec.ofNat_toNat]
    exact State.respond_completesOk hs ..

/-- Settles O35: a read's success leaves the store and the cursor, and the answer is the one of `S`. -/
theorem readsHaveNoSideEffects : Obligations.ReadsHaveNoSideEffects := by
  intro i s hi
  obtain ⟨t, q, h, hq, ⟨hconf, -⟩, hends⟩ := exec_completion (decode_encode i) s
  have hkept : t.store = s.store ∧ t.wcur = s.wcur := by
    rcases hends.store_wcur with hkept | he
    · exact hkept
    · cases i with
      | rawbyte _ | capbytes | get _ _ | getc _ _ | sizebits => exact he
      | new _ | resize _ | insert _ _ _ | append _ _ => simp [Instr.opcode] at hi
  obtain ⟨hstore, hwcur⟩ := hkept
  refine ⟨t, q, h, hq, hstore, hwcur, fun hf => ?_⟩
  have hS : s.sameS t := ⟨hstore, hwcur, hends.latch_of_not_fatal hf⟩
  obtain ⟨t', u, h', hu, hrsp⟩ := exec_sameAnswer hS hconf i
  cases h.symm.trans h'
  exact ⟨hS, u, hu, hrsp⟩

/-- Settles O48: `bitAt` reads the byte's bit, and shifting the byte down to it and masking gives the same bit. -/
theorem bitOffsetsAreMsbFirst : Obligations.BitOffsetsAreMsbFirst := by
  intro m p
  refine ⟨fun hp => ?_, Memory.bitAt_of_ge⟩
  have hread := Memory.read_of_lt (m := m) (i := p / 8) (by omega)
  refine ⟨_, hread, ?_⟩
  have hbit := Memory.bitAt_of_read hread (Nat.mod_lt p (by decide))
  rw [Nat.div_add_mod] at hbit
  rw [hbit, BitVec.getLsbD, Nat.testBit_eq_decide_div_mod_eq, Nat.and_one_is_mod, Nat.shiftRight_eq_div_pow]

end Sys2Proof.Machine

/-! The statements about the encoding (30_encoding.md): the decoder, the encoder and the assembler, the operands a
command ignores, the fields of a response, and the port's handshake. First come facts they share: a word matches a row by
its three fields, and every command answers with a proper response whose NEXT is its own. -/

namespace Sys2Proof

open Machine

/-! ## The fields of a command word -/

/-- A command word is its three fields (30_encoding.md R62). -/
theorem cmdWord_ext {w w' : CmdWord} (hop : cmdOp w = cmdOp w') (hlen : cmdLen w = cmdLen w')
    (hrsvd : cmdRsvd w = cmdRsvd w') : w = w' := by
  have split (x : CmdWord) : x = cmdRsvd x ++ (cmdLen x ++ cmdOp x) := by
    have hlow : cmdLen x ++ cmdOp x = x.extractLsb' 0 11 := BitVec.extractLsb'_append_extractLsb'_eq_extractLsb' rfl
    have hall : cmdRsvd x ++ x.extractLsb' 0 11 = x.extractLsb' 0 32 :=
      BitVec.extractLsb'_append_extractLsb'_eq_extractLsb' rfl
    rw [hlow, hall, BitVec.extractLsb'_eq_self]
  rw [split w, split w', hop, hlen, hrsvd]

@[simp] theorem cmdOp_and (w m : CmdWord) : cmdOp (w &&& m) = cmdOp w &&& cmdOp m := BitVec.extractLsb'_and ..

@[simp] theorem cmdLen_and (w m : CmdWord) : cmdLen (w &&& m) = cmdLen w &&& cmdLen m := BitVec.extractLsb'_and ..

@[simp] theorem cmdRsvd_and (w m : CmdWord) : cmdRsvd (w &&& m) = cmdRsvd w &&& cmdRsvd m := BitVec.extractLsb'_and ..

@[simp] theorem cmdOp_cmdWord (o : Opcode) (len : LenField) : cmdOp (cmdWord o len) = o.number :=
  BitVec.extractLsb'_append_eq_right

@[simp] theorem cmdRsvd_cmdWord (o : Opcode) (len : LenField) : cmdRsvd (cmdWord o len) = 0#21 := by
  rw [cmdWord, BitVec.append_assoc]
  exact BitVec.extractLsb'_append_eq_left

/-! ## Matching a row of the opcode map -/

theorem Opcode.mem_all (o : Opcode) : o ∈ Opcode.all := by
  cases o <;> decide

/-- The `match` column fixes the opcode and is zero elsewhere. -/
theorem Opcode.matchWord_eq (o : Opcode) : o.matchWord = cmdWord o 0#7 := by
  cases o <;> rfl

/-- The `mask` column covers OP and RSVD, and LEN too on a Z command. -/
theorem Opcode.maskWord_fields (o : Opcode) :
    cmdOp o.maskWord = BitVec.allOnes 4 ∧ cmdRsvd o.maskWord = BitVec.allOnes 21 ∧
      cmdLen o.maskWord = if isField o then 0#7 else BitVec.allOnes 7 := by
  cases o <;> decide

/-- A word matches a row by its fields: OP is the row's, RSVD is zero, and so is LEN on a Z command. -/
theorem Opcode.matches_iff (o : Opcode) (w : CmdWord) :
    o.matches w = true ↔ cmdOp w = o.number ∧ cmdRsvd w = 0#21 ∧ (isField o = false → cmdLen w = 0#7) := by
  obtain ⟨hop, hrsvd, hlen⟩ := o.maskWord_fields
  have hfields : o.matches w = true ↔ cmdOp (w &&& o.maskWord) = cmdOp o.matchWord ∧
      cmdRsvd (w &&& o.maskWord) = cmdRsvd o.matchWord ∧ cmdLen (w &&& o.maskWord) = cmdLen o.matchWord := by
    rw [Opcode.matches, beq_iff_eq]
    exact ⟨fun h => by simp [h], fun ⟨h, h', h''⟩ => cmdWord_ext h h'' h'⟩
  rw [hfields, o.matchWord_eq]
  simp only [cmdOp_and, cmdRsvd_and, cmdLen_and, hop, hrsvd, hlen, cmdOp_cmdWord, cmdRsvd_cmdWord, cmdLen_cmdWord,
    BitVec.and_allOnes]
  cases isField o with
  | true => simp
  | false => simp only [Bool.false_eq_true, if_false, BitVec.and_allOnes, forall_const]

theorem Opcode.number_injective {o o' : Opcode} (h : o.number = o'.number) : o = o' := by
  revert h
  cases o <;> cases o' <;> decide

theorem Opcode.matches_unique {o o' : Opcode} {w : CmdWord} (h : o.matches w = true) (h' : o'.matches w = true) :
    o = o' := by
  rw [Opcode.matches_iff] at h h'
  exact Opcode.number_injective (h.1.symm.trans h'.1)

theorem decodeOpcode_eq_some_iff {w : CmdWord} {o : Opcode} : decodeOpcode w = some o ↔ o.matches w = true := by
  have hmatches (o' : Opcode) (h : decodeOpcode w = some o') : o'.matches w = true :=
    List.find?_some (p := fun o : Opcode => o.matches w) h
  refine ⟨hmatches o, fun h => ?_⟩
  obtain ⟨o', h'⟩ := Option.isSome_iff_exists.mp
    (List.find?_isSome (p := fun o => o.matches w) |>.mpr ⟨o, o.mem_all, h⟩)
  exact Opcode.matches_unique h (hmatches o' h') ▸ h'

theorem decode_of_matches {r : Request} {o : Opcode} (h : o.matches r.cmd = true) :
    decode r = .command (o.command r) := by
  rw [decode, decodeOpcode_eq_some_iff.mpr h]

theorem decode_illegal_iff (r : Request) :
    (∃ why, decode r = .illegal why) ↔ ∀ o : Opcode, o.matches r.cmd = false := by
  constructor
  · rintro ⟨why, h⟩ o
    refine Bool.eq_false_of_not_eq_true fun hm => ?_
    cases h.symm.trans (decode_of_matches hm)
  · intro h
    have hnone : decodeOpcode r.cmd = none := List.find?_eq_none.mpr fun o _ => by simp [h o]
    exact ⟨illegalReason r.cmd, by rw [decode, hnone]⟩

/-- A request decodes to a command through the row its word matches. -/
theorem matches_of_decode {r : Request} {i : Instr} (h : decode r = .command i) :
    ∃ o : Opcode, o.matches r.cmd = true ∧ i = o.command r := by
  unfold decode at h
  split at h
  next o ho =>
    cases h
    exact ⟨o, decodeOpcode_eq_some_iff.mp ho, rfl⟩
  next => cases h

@[simp] theorem Opcode.opcode_command (o : Opcode) (r : Request) : (o.command r).opcode = o := by
  cases o <;> rfl

theorem encode_command_cmd (o : Opcode) (r : Request) :
    (encode (o.command r)).cmd = cmdWord o (if isField o then cmdLen r.cmd else 0#7) := by
  cases o <;> rfl

theorem eq_cmdWord_of_matches {o : Opcode} {w : CmdWord} (h : o.matches w = true) :
    w = cmdWord o (if isField o then cmdLen w else 0#7) := by
  obtain ⟨hop, hrsvd, hlen⟩ := (o.matches_iff w).mp h
  refine cmdWord_ext (by simp [hop]) ?_ (by simp [hrsvd])
  rw [cmdLen_cmdWord]
  cases hf : isField o with
  | true => rfl
  | false => exact hlen hf

/-- Requests of one word that agree on what its row uses of the operands have one outcome (30_encoding.md R63). -/
theorem execRequest_congr {r r' : Request} {o : Opcode} (hm : o.matches r.cmd = true) (hcmd : r'.cmd = r.cmd)
    (ho : o.command r' = o.command r) (s : State) : execRequest r' s = execRequest r s := by
  rw [execRequest_of_command (decode_of_matches hm), execRequest_of_command (decode_of_matches (hcmd.symm ▸ hm)), ho]

/-! ## The NEXT field -/

/-- The NEXT field of a command's error response: the unadvanced cursor of a GETC, else 0 (30_encoding.md R68). -/
def Instr.nextOnError : Instr → Word
  | .getc cursor _ => cursor
  | _ => 0

/-- The NEXT field of a command's success: the advanced cursor of a GETC, else 0 (30_encoding.md R68). -/
def Instr.nextOnSuccess : Instr → Word
  | .getc cursor len => BitVec.ofNat 64 (cursor.toNat + len.toNat)
  | _ => 0

theorem errorNext_of_matches {r : Request} {o : Opcode} (hm : o.matches r.cmd = true) :
    errorNext r = (o.command r).nextOnError := by
  rw [errorNext, decodeOpcode_eq_some_iff.mpr hm]
  cases o <;> rfl

/-! ## The illegal words -/

/-- The values 0x0 and 0xA to 0xF are those of no row (30_encoding.md R66). -/
theorem unassigned_iff (op : BitVec 4) : (op = 0x0#4 ∨ 0xA#4 ≤ op) ↔ ∀ o : Opcode, op ≠ o.number := by
  have h : ∀ op : BitVec 4, (op = 0x0#4 ∨ 0xA#4 ≤ op) ↔ ∀ o ∈ Opcode.all, op ≠ o.number := by decide
  simpa [Opcode.mem_all] using h op

/-- The opcodes of R66's third condition are those of the Z commands. -/
theorem zCommand_iff (o : Opcode) : (o.number = 0x1#4 ∨ o.number = 0x2#4 ∨ o.number = 0x3#4 ∨ o.number = 0x4#4 ∨
    o.number = 0x9#4) ↔ isField o = false := by
  cases o <;> decide

/-- No row matches exactly where one of the three conditions of 30_encoding.md R66 holds. -/
theorem no_match_iff (w : CmdWord) : (∀ o : Opcode, o.matches w = false) ↔
    (cmdOp w = 0x0#4 ∨ 0xA#4 ≤ cmdOp w) ∨ cmdRsvd w ≠ 0#21 ∨
      ((cmdOp w = 0x1#4 ∨ cmdOp w = 0x2#4 ∨ cmdOp w = 0x3#4 ∨ cmdOp w = 0x4#4 ∨ cmdOp w = 0x9#4) ∧ cmdLen w ≠ 0#7) := by
  rw [unassigned_iff]
  have hfields (o : Opcode) : o.matches w = false ↔
      ¬ (cmdOp w = o.number ∧ cmdRsvd w = 0#21 ∧ (isField o = false → cmdLen w = 0#7)) := by
    rw [← o.matches_iff, Bool.not_eq_true]
  simp only [hfields]
  by_cases hop : ∀ o : Opcode, cmdOp w ≠ o.number
  · simp [hop]
  · obtain ⟨o, ho⟩ := not_forall_not.mp hop
    have hrow : (∀ o' : Opcode, ¬ (cmdOp w = o'.number ∧ cmdRsvd w = 0#21 ∧ (isField o' = false → cmdLen w = 0#7))) ↔
        ¬ (cmdRsvd w = 0#21 ∧ (isField o = false → cmdLen w = 0#7)) := by
      refine ⟨fun h hf => h o ⟨ho, hf⟩, fun h o' hm => h ?_⟩
      rw [Opcode.number_injective (ho.symm.trans hm.1)]
      exact hm.2
    rw [hrow, ho, zCommand_iff]
    have hnone : ¬ ∀ o' : Opcode, o.number ≠ o'.number := fun h => h o rfl
    tauto

end Sys2Proof

namespace Sys2Proof.Machine

/-! ## Fatal errors -/

theorem State.raise_completesFatal (s : State) (e : FatalError) (next : Word) :
    s.CompletesFatal (s.raise (.fatal e) next) e.bits next :=
  ⟨rfl, rfl, rfl, rfl, ⟨rfl, rfl, rfl, rfl⟩, rfl⟩

/-- A field command of length 0 or above `W` completes with BAD_LENGTH (60_exceptions.md R165 step 3). -/
theorem exec_of_badLength {s : State} (hs : s.fault = false) {r : Request} {o : Opcode} (hm : o.matches r.cmd = true)
    (hf : isField o = true)
    (hl : (cmdLen r.cmd).toNat = 0 ∨ s.config.valueWidth.bits < (cmdLen r.cmd).toNat) :
    exec (o.command r) s = .next (s.raise (.fatal .badLength) (errorNext r)) := by
  have hbad : ¬ (1 ≤ (cmdLen r.cmd).toNat ∧ (cmdLen r.cmd).toNat ≤ s.config.valueWidth.bits) := by omega
  rw [errorNext_of_matches hm]
  cases o with
  | insert | append | get | getc => exact withLength_of_bad hs hbad ..
  | new | resize | rawbyte | capbytes | sizebits => simp [isField] at hf

/-! ## The assembler's words -/

/-- `len << 4 | OP` is the command word of every length the field holds (30_encoding.md R62). -/
theorem cmdWord_ofNat (o : Opcode) {l : Nat} (h : l ≤ 127) :
    cmdWord o (BitVec.ofNat 7 l) = BitVec.ofNat 32 (l <<< 4 ||| o.number.toNat) := by
  apply BitVec.eq_of_toNat_eq
  have hor : l <<< 4 ||| o.number.toNat < 2 ^ 32 :=
    Nat.or_lt_two_pow (by rw [Nat.shiftLeft_eq]; omega) (Nat.lt_of_lt_of_le o.number.isLt (by decide))
  rw [cmdWord, BitVec.toNat_append, BitVec.toNat_append, BitVec.toNat_ofNat, BitVec.toNat_ofNat,
    BitVec.toNat_ofNat, Nat.mod_eq_of_lt (by omega : l < 2 ^ 7), Nat.mod_eq_of_lt hor]
  simp

theorem lenFits_iff (n : Nat) : lenFits n = true ↔ n ≤ 127 := by
  rw [lenFits, decide_eq_true_eq, Nat.lt_succ_iff]

theorem operandFits_iff (n : Nat) : operandFits n = true ↔ n < 2 ^ 64 := decide_eq_true_iff

/-- A line whose check is the proposition `p` gives the request `x`, or is refused. -/
theorem assemble_eq {l : Line} {p : Prop} [Decidable p] {x : Request} (hp : l.wellFormed = true ↔ p)
    (hx : p → encode l.command = x) : assemble l = if p then some x else none := by
  unfold assemble
  split_ifs with hw h h
  · rw [hx h]
  · exact absurd (hp.mp hw) h
  · exact absurd (hp.mpr h) hw
  · rfl

/-! ## What every command answers -/

/-- The result is a next state with a proper response on the channel, whose NEXT is `ns` with code OK and `ne` with any
other (30_encoding.md R67, R68). -/
def RespondsWith (ne ns : Word) (x : Result) : Prop :=
  ∃ t q, x = .next t ∧ t.rsp = some q ∧ q.proper = true ∧ q.next = if q.code = 0x00#8 then ns else ne

section
variable {s : State} {ne ns : Word}

theorem RespondsWith.ok (s : State) (res : Option Word) (ne ns : Word) :
    RespondsWith ne ns (.next (s.respond .ok res ns)) := by
  obtain ⟨q, hq, hproper⟩ := s.respond_proper .ok res ns (fun _ => rfl)
  refine ⟨_, q, rfl, hq, hproper, ?_⟩
  cases hq
  simp [Response.code, StatusCode.bits]

theorem RespondsWith.notOk (s : State) {c : StatusCode} (hc : c.bits ≠ 0x00#8) (ne ns : Word) :
    RespondsWith ne ns (.next (s.respond c none ne)) := by
  obtain ⟨q, hq, hproper⟩ := s.respond_proper c none ne (fun h => by simp at h)
  refine ⟨_, q, rfl, hq, hproper, ?_⟩
  cases hq
  simp [Response.code, hc]

theorem StatusCode.error_bits_ne_ok (e : CommandError) : (StatusCode.error e).bits ≠ 0x00#8 := by
  rcases e with e | e <;> cases e <;> decide

theorem RespondsWith.raised (s : State) (e : CommandError) (ne ns : Word) :
    RespondsWith ne ns (.next (s.raise e ne)) := by
  cases e with
  | recoverable e => exact .notOk s (c := .error (.recoverable e)) (StatusCode.error_bits_ne_ok _) ..
  | fatal e => exact .notOk (s.latchFault e) (c := .error (.fatal e)) (StatusCode.error_bits_ne_ok _) ..

theorem RespondsWith.guarded {run : Result} (h : RespondsWith ne ns run) :
    RespondsWith ne ns (unlessFaulted s ne run) := by
  unfold unlessFaulted
  split
  · exact .notOk s (by decide) ..
  · exact h

theorem RespondsWith.fieldGuarded {len : LenField} {run : Result} (h : RespondsWith ne ns run) :
    RespondsWith ne ns (withLength s len ne run) := by
  unfold withLength
  refine .guarded ?_
  split
  · exact h
  · exact .raised ..

theorem RespondsWith.write (s : State) (value : Word) (start : Nat) (len : LenField) (w : Word) :
    RespondsWith 0 0 (writeField s value start len w) := by
  cases h : writeCheck s.config value.toNat start len.toNat with
  | some e => exact writeField_of_error h w ▸ .raised ..
  | none =>
    obtain ⟨m, e, -⟩ := writeField_of_ok h w
    exact e ▸ .ok ..

theorem RespondsWith.read (s : State) (start : Nat) (len : LenField) (ne ns : Word) :
    RespondsWith ne ns (readField s start len ne ns) := by
  rcases Nat.lt_or_ge s.store.capacityBits (start + len.toNat) with h | h
  · exact readField_of_out h ne ns ▸ .raised ..
  · obtain ⟨n, -, -, e⟩ := readField_of_in h ne ns
    exact e ▸ .ok ..

end

/-- Every command, in every state, answers with a proper response and the NEXT field of its code. -/
theorem exec_respondsWith (i : Instr) (s : State) : RespondsWith i.nextOnError i.nextOnSuccess (exec i s) := by
  cases i with
  | new size =>
    refine .guarded ?_
    split
    · exact .raised ..
    · exact .ok ..
  | resize bytes =>
    refine .guarded ?_
    split
    · exact .raised ..
    split
    · exact .raised ..
    · exact .ok ..
  | rawbyte index =>
    refine .guarded ?_
    split
    case isTrue => exact .raised ..
    case isFalse h =>
      rw [Memory.read_of_lt (Nat.lt_of_not_le h)]
      exact .ok ..
  | capbytes => exact .guarded (.ok ..)
  | insert value start len => exact .fieldGuarded (.write ..)
  | append value len => exact .fieldGuarded (.write ..)
  | get start len => exact .fieldGuarded (.read ..)
  | getc cursor len => exact .fieldGuarded (.read ..)
  | sizebits => exact .guarded (.ok ..)

theorem takeIllegal_respondsWith (s : State) : RespondsWith 0 0 s.takeIllegal := .guarded (.raised ..)

theorem Response.res_of_proper {q : Response} (h : q.proper = true) (hv : q.rvalid = false) : q.res = 0 := by
  simp only [Response.proper, Bool.and_eq_true, Bool.or_eq_true, hv, Bool.false_eq_true, false_or, beq_iff_eq] at h
  exact h.2

/-- A GETC that succeeds advances the cursor to a bit offset within the store, so its sum is exact under the invariants
(41_bit_arithmetic.md R110). -/
theorem State.Admits.getc_cursor {s : State} {cursor : Word} {len : LenField} (h : s.Admits (.getc cursor len))
    (hinv : s.Inv) : (Instr.nextOnSuccess (.getc cursor len)).toNat = cursor.toNat + len.toNat := by
  obtain ⟨-, hin⟩ := h
  have hbound := hinv.lenBounded
  have hlegal := hinv.configLegal
  simp only [Config.legal, Bool.and_eq_true, decide_eq_true_eq] at hlegal
  unfold Memory.capacityBits at hin
  rw [Instr.nextOnSuccess, BitVec.toNat_ofNat, Nat.mod_eq_of_lt (by omega)]

/-! ## The statements -/

/-- Settles O1, from the row of the opcode map each encoded word matches. -/
theorem decodeOfEncodeIsTheCommand : Obligations.DecodeOfEncodeIsTheCommand := decode_encode

/-- Settles O2: two rows that match one word have one opcode number, and the search of the map finds the row there
is. -/
theorem decodingIsTheUniqueMatchingRow : Obligations.DecodingIsTheUniqueMatchingRow :=
  ⟨fun _ _ _ => Opcode.matches_unique, fun _ _ => decode_of_matches, fun r => (decode_illegal_iff r).mpr⟩

/-- Settles O3: the word a row matches is the one its opcode and length make; the operands row by row. -/
theorem encodeOfDecodeIsTheCommandWord : Obligations.EncodeOfDecodeIsTheCommandWord := by
  intro r i h
  obtain ⟨o, hm, rfl⟩ := matches_of_decode h
  refine ⟨?_, ?_, ?_⟩
  · rw [encode_command_cmd]
    exact (eq_cmdWord_of_matches hm).symm
  · cases o <;> rfl
  · cases o <;> rfl

/-- Settles O4: a word no row matches meets one of R66's conditions, and raises ILLEGAL_COMMAND; a bad length is met by
the length check. -/
theorem illegalWordsAreRule66AndFatal : Obligations.IllegalWordsAreRule66AndFatal := by
  intro r
  refine ⟨(decode_illegal_iff r).trans (no_match_iff r.cmd), fun s hs => ⟨?_, ?_⟩⟩
  · rintro ⟨why, h⟩
    exact ⟨_, (execRequest_of_illegal h s).trans (State.takeIllegal_of_clear hs), s.raise_completesFatal ..⟩
  · intro i h hf hl
    obtain ⟨o, hm, rfl⟩ := matches_of_decode h
    rw [Opcode.opcode_command] at hf
    exact ⟨_, (execRequest_of_command h s).trans (exec_of_badLength hs hm hf hl), s.raise_completesFatal ..⟩

/-- Settles O6, line by line: the check of the line's numbers and the word of its opcode and length. -/
theorem assemblerFollowsItsTable : Obligations.AssemblerFollowsItsTable := by
  refine ⟨fun n => ?_, rfl, rfl, fun v p l => ⟨?_, ?_, ?_, ?_⟩, rfl⟩
  · have hfits := operandFits_iff n
    exact ⟨assemble_eq hfits fun _ => rfl, assemble_eq hfits fun _ => rfl, assemble_eq hfits fun _ => rfl⟩
  · refine assemble_eq (by simp [Line.wellFormed, operandFits_iff, lenFits_iff, and_assoc]) fun ⟨_, _, hl⟩ => ?_
    rw [Line.command, encode, cmdWord_ofNat .insert hl]
    rfl
  · refine assemble_eq (by simp [Line.wellFormed, operandFits_iff, lenFits_iff]) fun ⟨_, hl⟩ => ?_
    rw [Line.command, encode, cmdWord_ofNat .append hl]
    rfl
  · refine assemble_eq (by simp [Line.wellFormed, operandFits_iff, lenFits_iff]) fun ⟨_, hl⟩ => ?_
    rw [Line.command, encode, cmdWord_ofNat .get hl]
    rfl
  · refine assemble_eq (by simp [Line.wellFormed, operandFits_iff, lenFits_iff]) fun ⟨_, hl⟩ => ?_
    rw [Line.command, encode, cmdWord_ofNat .getc hl]
    rfl

/-- Settles O7: the request decodes to the same command, so it has the same outcome. -/
theorem ignoredOperandsAffectNothing : Obligations.IgnoredOperandsAffectNothing := by
  intro r i x s h
  obtain ⟨o, hm, rfl⟩ := matches_of_decode h
  rw [Opcode.opcode_command]
  refine ⟨fun hinsert happend => ?_, fun ho => ?_⟩
  · have hsame : o.command { r with opa := x } = o.command r := by
      cases o with
      | insert => exact absurd rfl hinsert
      | append => exact absurd rfl happend
      | new | resize | rawbyte | capbytes | get | getc | sizebits => rfl
    exact execRequest_congr (r' := { r with opa := x }) hm rfl hsame s
  · have hsame : o.command { r with opb := x } = o.command r := by
      rcases ho with rfl | rfl | rfl <;> rfl
    exact execRequest_congr (r' := { r with opb := x }) hm rfl hsame s

/-- Settles O43: every answer is proper and has its command's NEXT; a GETC that succeeds read within the store. -/
theorem fieldsNotProducedAreZero : Obligations.FieldsNotProducedAreZero := by
  intro r s hinv
  cases hd : decode r with
  | illegal why =>
    obtain ⟨t, q, h, hq, hproper, hnext⟩ := takeIllegal_respondsWith s
    rw [execRequest_of_illegal hd]
    exact ⟨t, q, h, hq, Response.res_of_proper hproper, by simp, fun _ => by simpa using hnext⟩
  | command i =>
    obtain ⟨t, q, h, hq, hproper, hnext⟩ := exec_respondsWith i s
    rw [execRequest_of_command hd]
    refine ⟨t, q, h, hq, Response.res_of_proper hproper, ?_, ?_⟩
    · rintro c len hi
      cases hi
      obtain ⟨o, hm, ho⟩ := matches_of_decode hd
      have hopb : c = r.opb := by cases o <;> cases ho; rfl
      refine ⟨fun hc => ?_, fun hc => ?_⟩
      · obtain ⟨hadm, -⟩ := exec_onSuccess _ s t q h hq hc
        rw [hnext, if_pos hc, hadm.getc_cursor hinv]
      · rw [hnext, if_neg hc, ← hopb, Instr.nextOnError]
    · intro hnot
      cases i with
      | getc c len => exact absurd ⟨c, len, rfl⟩ hnot
      | new _ | resize _ | rawbyte _ | capbytes | insert _ _ _ | append _ _ | get _ _ | sizebits =>
        simpa [Instr.nextOnError, Instr.nextOnSuccess] using hnext

/-- Settles O44: the parts of the word, each shifted to its place. -/
theorem statusWordLayout : Obligations.StatusWordLayout := by
  intro code fcode rvalid fault
  simp only [statusWord, BitVec.toNat_append, BitVec.toNat_ofBool, BitVec.toNat_ofNat, Nat.shiftLeft_or_distrib,
    ← Nat.shiftLeft_add, Nat.zero_mod, Nat.zero_shiftLeft, Nat.zero_or, Nat.or_zero]
  simp only [Nat.reduceAdd]
  ac_rfl

/-- Settles O5: each word decodes by evaluation. -/
theorem writtenOutWordsDecode : Obligations.WrittenOutWordsDecode := by
  unfold Obligations.WrittenOutWordsDecode
  decide

/-- Settles O13, by the equation of a step that accepts a request. -/
theorem stepRunsTheDecodedCommand : Obligations.StepRunsTheDecodedCommand := by
  intro s t r takes rest i hq hh hd h
  rw [step_of_request hq hh]
  exact transact_of_next ((execRequest_of_command hd _).trans h) takes

/-- Settles O14, by the equations of a step at which a request waits and of one at which the response transfers. -/
theorem heldResponseBlocksUntilTaken : Obligations.HeldResponseBlocksUntilTaken := by
  intro s q hr hq
  have hready : s.reqReady = false := by simp [State.reqReady, hq]
  refine ⟨hready, by simp [State.rspValid, hr, hq], fun r takes rest => step_of_waiting hr hready, fun rest hh => ?_⟩
  refine ⟨_, step_of_takeResponse hr hh, ?_⟩
  simp [State.sameS, State.reqReady, hr, hq]

end Sys2Proof.Machine

/-! The statements about the backing store (40_backing_store.md): NEW, RESIZE, RAWBYTE and CAPBYTES on every operand and
state, what a change of length does to the bytes, and who changes the length. First come facts they share: how a command
on a faulted block and an error complete, and one equation per branch of each backing store command. -/

namespace Sys2Proof.Machine

/-! ## Refusals and recoverable errors -/

theorem State.refuseFaulted_completesRefused {s : State} (hs : s.fault = true) (next : Word) :
    s.CompletesRefused (s.refuseFaulted next) next :=
  ⟨⟨rfl, rfl, rfl, rfl⟩, ⟨rfl, rfl, rfl, rfl⟩, by simp [errorResponse, hs]⟩

theorem State.raise_completesRecoverable (s : State) (e : RecoverableError) (next : Word) :
    s.CompletesRecoverable (s.raise (.recoverable e) next) e.bits next :=
  ⟨⟨rfl, rfl, rfl, rfl⟩, ⟨rfl, rfl, rfl, rfl⟩, rfl⟩

/-- Every command tests the latch first (60_exceptions.md R165 step 1). -/
theorem exec_of_fault {s : State} (hs : s.fault = true) (i : Instr) :
    exec i s = .next (s.refuseFaulted i.nextOnError) := by
  cases i with
  | new _ | resize _ | rawbyte _ | capbytes | sizebits => exact unlessFaulted_of_fault hs ..
  | insert _ _ _ | append _ _ | get _ _ | getc _ _ => exact withLength_of_fault hs ..

/-- Every command on a faulted block completes with FAULTED (60_exceptions.md R164). -/
theorem exec_completesRefused {s : State} (hs : s.fault = true) (i : Instr) :
    ∃ t, exec i s = .next t ∧ s.CompletesRefused t i.nextOnError :=
  ⟨_, exec_of_fault hs i, s.refuseFaulted_completesRefused hs _⟩

/-! ## One equation per branch of a backing store command -/

section
variable {s : State} (hs : s.fault = false)
include hs

theorem exec_new_of_exhausted {size : Word} (h : s.config.maxBytes < ceilBytes size.toNat) :
    exec (.new size) s = .next (s.raise (.fatal .resourceExhausted) 0) :=
  (unlessFaulted_of_clear hs 0 _).trans (if_pos h)

theorem exec_new_of_room {size : Word} (h : ceilBytes size.toNat ≤ s.config.maxBytes) :
    exec (.new size) s =
      .next (((s.withStore (Memory.zeros (ceilBytes size.toNat))).withWcur 0).respond .ok none 0) :=
  (unlessFaulted_of_clear hs 0 _).trans (if_neg (Nat.not_lt_of_le h))

theorem exec_resize_of_below_cursor {bytes : Word} (h : 8 * bytes.toNat < s.wcur.toNat) :
    exec (.resize bytes) s = .next (s.raise (.recoverable .bufferTooSmall) 0) :=
  (unlessFaulted_of_clear hs 0 _).trans (if_pos h)

theorem exec_resize_of_exhausted {bytes : Word} (hcur : s.wcur.toNat ≤ 8 * bytes.toNat)
    (h : s.config.maxBytes < bytes.toNat) :
    exec (.resize bytes) s = .next (s.raise (.fatal .resourceExhausted) 0) :=
  (unlessFaulted_of_clear hs 0 _).trans ((if_neg (Nat.not_lt_of_le hcur)).trans (if_pos h))

theorem exec_resize_of_room {bytes : Word} (hcur : s.wcur.toNat ≤ 8 * bytes.toNat)
    (h : bytes.toNat ≤ s.config.maxBytes) :
    exec (.resize bytes) s = .next ((s.withStore (s.store.setLen bytes.toNat)).respond .ok none 0) :=
  (unlessFaulted_of_clear hs 0 _).trans ((if_neg (Nat.not_lt_of_le hcur)).trans (if_neg (Nat.not_lt_of_le h)))

theorem exec_rawbyte_of_past_end {index : Word} (h : s.store.len ≤ index.toNat) :
    exec (.rawbyte index) s = .next (s.raise (.fatal .rawIndexRange) 0) :=
  (unlessFaulted_of_clear hs 0 _).trans (if_pos h)

theorem exec_capbytes_of_clear :
    exec .capbytes s = .next (s.respond .ok (some (BitVec.ofNat 64 s.store.len)) 0) :=
  unlessFaulted_of_clear hs 0 _

end

/-! ## Bytes after a change of length -/

section
variable {m : Memory} {n i : Nat}

theorem Memory.zeros_read_of_lt (h : i < n) : (Memory.zeros n).read i = some 0x00#8 := by
  rw [Memory.zeros_read, if_pos h]

theorem Memory.setLen_read_of_kept (hn : i < n) (hm : i < m.len) : (m.setLen n).read i = m.read i := by
  rw [Memory.setLen_read, if_pos hn, if_pos hm, Memory.read_of_lt hm]

theorem Memory.setLen_read_of_added (hn : i < n) (hm : m.len ≤ i) : (m.setLen n).read i = some 0x00#8 := by
  rw [Memory.setLen_read, if_pos hn, if_neg (Nat.not_lt_of_le hm)]

end

/-! ## The length of the store -/

/-- The store's length is exact as 64 bits (10_state.md R22, 40_backing_store.md R86). -/
theorem State.Inv.len_lt {s : State} (h : s.Inv) : s.store.len < 2 ^ 64 := by
  have hlegal := h.configLegal
  have hlen := h.lenBounded
  simp only [Config.legal, Bool.and_eq_true, decide_eq_true_eq] at hlegal
  omega

/-- RESIZE's two range conditions exclude each other, since the cursor lies within a store of at most `MAX_BYTES`
(40_backing_store.md R84). -/
theorem State.Inv.resize_conditions_exclusive {s : State} (h : s.Inv) (n : Nat) :
    ¬ (8 * n < s.wcur.toNat ∧ s.config.maxBytes < n) := by
  have hcur := h.cursorInCapacity
  have hlen := h.lenBounded
  unfold Memory.capacityBits at hcur
  omega

/-- A successful write never makes the store shorter (40_backing_store.md R80). -/
theorem Memory.FieldWritten.len_le {m m' : Memory} {v : Word} {start len : Nat} (h : m.FieldWritten m' v start len) :
    m.len ≤ m'.len :=
  h.grown ▸ Nat.le_max_left ..

/-- The successes that change the length (40_backing_store.md R82). -/
theorem State.AfterSuccess.len_changed {s t : State} {i : Instr} (he : s.AfterSuccess i t)
    (hne : t.store.len ≠ s.store.len) :
    (i.opcode = .insert ∨ i.opcode = .append) ∧ s.store.len < t.store.len ∨ i.opcode = .resize ∨ i.opcode = .new := by
  cases i with
  | new _ => exact .inr (.inr rfl)
  | resize _ => exact .inr (.inl rfl)
  | insert _ _ _ => exact .inl ⟨.inl rfl, Nat.lt_of_le_of_ne he.1.len_le hne.symm⟩
  | append _ _ => exact .inl ⟨.inr rfl, Nat.lt_of_le_of_ne he.1.len_le hne.symm⟩
  | rawbyte _ | capbytes | get _ _ | getc _ _ | sizebits => exact absurd (congrArg Memory.len he.1) hne

/-- A request that changes the length is a command that succeeded. -/
theorem Ends.len_changed {r : Request} {s t : State} {q : Response} (h : Ends r s t q)
    (hne : t.store.len ≠ s.store.len) :
    ∃ i, decode r = .command i ∧ q.code = 0x00#8 ∧
      ((i.opcode = .insert ∨ i.opcode = .append) ∧ s.store.len < t.store.len ∨
        i.opcode = .resize ∨ i.opcode = .new) := by
  cases h with
  | unchanged hS =>
    obtain ⟨hstore, -⟩ := hS
    exact absurd (congrArg Memory.len hstore) hne
  | fatal _ hstore => exact absurd (congrArg Memory.len hstore) hne
  | ok i hd hc _ _ _ he => exact ⟨i, hd, hc, he.len_changed hne⟩

/-! ## The statements -/

/-- Settles O11: the answer of every command is proper, and its completion leaves the surroundings. -/
theorem everyCommandCompletesProperly : Obligations.EveryCommandCompletesProperly := by
  intro i s
  obtain ⟨t, q, h, hq, hproper, -⟩ := exec_respondsWith i s
  obtain ⟨-, -, hsur, -⟩ := exec_ends h
  exact ⟨t, q, h, hsur, hq, hproper⟩

/-- Settles O19, branch by branch; the bytes are those of a change of length. -/
theorem resizeFollowsItsRule : Obligations.ResizeFollowsItsRule := by
  intro n s
  refine ⟨fun hs => exec_completesRefused hs _, fun hs hlow => ?_, fun hs hcur hbig => ?_, fun hs hcur hroom => ?_,
    fun h => h.resize_conditions_exclusive _⟩
  · exact ⟨_, exec_resize_of_below_cursor hs hlow, s.raise_completesRecoverable ..⟩
  · exact ⟨_, exec_resize_of_exhausted hs hcur hbig, s.raise_completesFatal ..⟩
  · exact ⟨_, exec_resize_of_room hs hcur hroom, State.respond_completesOk (s := s.withStore _) hs .., rfl, rfl,
      fun _ => Memory.setLen_read_of_kept, fun _ => Memory.setLen_read_of_added⟩

/-- Settles O22: the first RESIZE leaves `n` bytes, so the second one adds every byte from index `n` up. -/
theorem droppedBytesComeBackZero : Obligations.DroppedBytesComeBackZero := by
  intro n k s t u i hn htq hk huq hni hik
  obtain ⟨-, -, -, -, -, -, hstore, -⟩ := exec_succeeded hn htq
  obtain ⟨-, -, -, -, -, -, hstore', -⟩ := exec_succeeded hk huq
  rw [hstore']
  exact Memory.setLen_read_of_added hik (by rwa [hstore, Memory.setLen_len])

/-- Settles O46: an error leaves the store, and of the successes only those of R82 change its length. -/
theorem lengthChangesOnlyByRule : Obligations.LengthChangesOnlyByRule := by
  constructor
  · intro r s t h hne
    obtain ⟨q, hq, -, hends, -⟩ := execRequest_ends h
    obtain ⟨i, hd, hc, hrule⟩ := hends.len_changed hne
    exact ⟨i, q, hd, hq, hc, hrule⟩
  · intro s t h hne
    rcases step_cases h with ⟨hr, -⟩ | ⟨-, r, q, ha, hans, -, -, hends⟩ | ⟨-, -, ⟨hstore, -⟩, -⟩
    · exact .inl hr
    · obtain ⟨i, hd, hc, hrule⟩ := hends.len_changed hne
      exact .inr ⟨r, i, q, ha, hd, hans, hc, hrule⟩
    · exact absurd (congrArg Memory.len hstore) hne

/-- Settles O18, branch by branch. -/
theorem newFollowsItsRule : Obligations.NewFollowsItsRule := by
  intro size s
  refine ⟨fun hs => exec_completesRefused hs _, fun hs hbig => ?_, fun hs hroom => ?_⟩
  · exact ⟨_, exec_new_of_exhausted hs hbig, s.raise_completesFatal ..⟩
  · exact ⟨_, exec_new_of_room hs hroom, State.respond_completesOk (s := (s.withStore _).withWcur 0) hs .., rfl, rfl,
      fun _ => Memory.zeros_read_of_lt⟩

/-- Settles O20: an index below the length has a byte. -/
theorem rawbyteFollowsItsRule : Obligations.RawbyteFollowsItsRule := by
  intro index s
  refine ⟨fun hs => exec_completesRefused hs _, fun hs hpast => ?_, fun hs hlt => ?_⟩
  · exact ⟨_, exec_rawbyte_of_past_end hs hpast, s.raise_completesFatal ..⟩
  · have hread := Memory.read_of_lt hlt
    exact ⟨_, _, exec_rawbyte_of_read hs hread, hread, State.respond_completesOk hs .., rfl, rfl, rfl, rfl⟩

/-- Settles O21; the length is exact as 64 bits since `MAX_BYTES` is. -/
theorem capbytesFollowsItsRule : Obligations.CapbytesFollowsItsRule := by
  intro s
  refine ⟨fun hs => exec_completesRefused hs _, fun hs => ?_, fun h => ?_⟩
  · exact ⟨_, exec_capbytes_of_clear hs, State.respond_completesOk hs .., rfl, rfl, rfl, rfl⟩
  · rw [BitVec.toNat_ofNat, Nat.mod_eq_of_lt h.len_lt]

end Sys2Proof.Machine

/-! The statements about the bit arithmetic (41_bit_arithmetic.md): the two forms of `extractBits`, the highest one bit, and
an offset so large that the end of its field needs more than 64 bits. First come the facts they use: the value of
`mostSignificantSetBit`, and the equations of a write that exceeds `MAX_BYTES`. -/

namespace Sys2Proof.Machine

/-! ## The highest one bit -/

theorem mostSignificantSetBit_zero : mostSignificantSetBit 0 = none :=
  if_pos rfl

theorem mostSignificantSetBit_of_ne_zero {v : Nat} (h : v ≠ 0) : mostSignificantSetBit v = some (Nat.log2 v) :=
  if_neg h

/-- No bit above the highest one bit is one. -/
theorem testBit_of_log2_lt {v j : Nat} (h : Nat.log2 v < j) : v.testBit j = false :=
  Nat.testBit_lt_two_pow (Nat.lt_of_lt_of_le Nat.lt_log2_self (Nat.pow_le_pow_right (by decide) h))

/-! ## The two forms of a field -/

/-- The mask of the in-place form comes back to value bit 0 when the field is moved down (41_bit_arithmetic.md R107). -/
theorem extractBitsInPlace_shiftRight (v start quantity : Nat) :
    extractBitsInPlace v start quantity >>> start = extractBitsShifted v start quantity := by
  rw [extractBitsInPlace, Nat.shiftRight_and_distrib, Nat.shiftLeft_shiftRight, extractBitsShifted]

/-! ## Writes beyond `MAX_BYTES` -/

/-- A legal `MAX_BYTES` is at most `2^60` (00_scope.md R9). -/
theorem maxBytes_le_of_legal {c : Config} (h : c.legal = true) : c.maxBytes ≤ 2 ^ 60 := by
  rw [Config.legal, Bool.and_eq_true, decide_eq_true_eq, decide_eq_true_eq] at h
  exact h.2

theorem writeCheck_of_exhausted {c : Config} {v start len : Nat} (hfit : v < 2 ^ len)
    (hbig : c.maxBytes < ceilBytes (start + len)) :
    writeCheck c v start len = some (.fatal .resourceExhausted) := by
  rw [writeCheck, if_neg (by simp [(fits_iff v len).mpr hfit]), if_pos hbig]

/-- An INSERT whose field ends beyond the largest store raises RESOURCE_EXHAUSTED (42_write_path.md R123). -/
theorem exec_insert_of_exhausted {s : State} (hs : s.fault = false) {value start : Word} {len : LenField}
    (h1 : 1 ≤ len.toNat) (hW : len.toNat ≤ s.config.valueWidth.bits) (hfit : value.toNat < 2 ^ len.toNat)
    (hbig : s.config.maxBytes < ceilBytes (start.toNat + len.toNat)) :
    exec (.insert value start len) s = .next (s.raise (.fatal .resourceExhausted) 0) :=
  (withLength_of_legal hs h1 hW 0 _).trans (writeField_of_error (writeCheck_of_exhausted hfit hbig) _)

/-! ## The statements -/

/-- Settles O28: the field ends at `2^64 + 7`, which needs `2^61 + 1` bytes, more than any legal `MAX_BYTES`. -/
theorem offsetArithmeticDoesNotWrap : Obligations.OffsetArithmeticDoesNotWrap := by
  intro s hlegal hs
  have hmax := maxBytes_le_of_legal hlegal
  have hW : (8#7).toNat ≤ s.config.valueWidth.bits := by cases s.config.valueWidth <;> decide
  have hend : ceilBytes ((0xFFFFFFFFFFFFFFFF#64).toNat + (8#7).toNat) = 2 ^ 61 + 1 := by decide
  have hbig : s.config.maxBytes < ceilBytes ((0xFFFFFFFFFFFFFFFF#64).toNat + (8#7).toNat) := by omega
  exact ⟨_, exec_insert_of_exhausted hs (by decide) hW (by decide) hbig, s.raise_completesFatal ..⟩

/-- Settles O49: the first part is the value of `mask`, the second holds for every field, within 64 bits or not. -/
theorem shiftedExtractIsInPlaceMovedDown : Obligations.ShiftedExtractIsInPlaceMovedDown := by
  intro v start quantity _ _
  exact ⟨rfl, (extractBitsInPlace_shiftRight v start quantity).symm⟩

/-- Settles O50: the highest one bit of a value is its base 2 logarithm, rounded down. -/
theorem mostSignificantSetBitIsTheHighest : Obligations.MostSignificantSetBitIsTheHighest := by
  refine ⟨mostSignificantSetBit_zero, fun v hv hlt => ?_⟩
  have hk : Nat.log2 v < 64 := (Nat.log2_lt hv).mpr hlt
  exact ⟨Nat.log2 v, mostSignificantSetBit_of_ne_zero hv, Nat.le_of_lt_succ hk, Nat.testBit_log2 hv,
    fun _ => testBit_of_log2_lt⟩

end Sys2Proof.Machine

/-! The statements about the write path (42_write_path.md): INSERT and APPEND on every operand and state, a value wider than
`W`, a written field that reads back, and the byte-at-a-time algorithm. First come the facts they share: how a write
completes in each branch of its checks, and `pack` of a field cut in two and of a field within one byte. -/

namespace Sys2Proof.Machine

/-! ## How a write completes -/

section
variable {s : State} (hs : s.fault = false)
include hs

/-- A field command of length 0 or above `W` completes with BAD_LENGTH (60_exceptions.md R165 step 3). -/
theorem withLength_completesFatal {len : LenField} (hbad : len.toNat = 0 ∨ s.config.valueWidth.bits < len.toNat)
    (next : Word) (run : Result) :
    ∃ t, withLength s len next run = .next t ∧ s.CompletesFatal t 0x12#8 next :=
  ⟨_, withLength_of_bad hs (by omega) next run, s.raise_completesFatal ..⟩

variable {v : Word} {start : Nat} {len : LenField} (h1 : 1 ≤ len.toNat) (hW : len.toNat ≤ s.config.valueWidth.bits)
include h1 hW

/-- A write of a value that does not fit its length completes with FIELD_TOO_NARROW (60_exceptions.md R165 step 4). -/
theorem write_completesTooNarrow (hwide : 2 ^ len.toNat ≤ v.toNat) (w : Word) :
    ∃ t, withLength s len 0 (writeField s v start len w) = .next t ∧ s.CompletesRecoverable t 0x01#8 0 := by
  have hcheck : writeCheck s.config v.toNat start len.toNat = some (.recoverable .fieldTooNarrow) :=
    if_pos ((fits_eq_false_iff ..).mpr hwide)
  exact ⟨_, (withLength_of_legal hs h1 hW 0 _).trans (writeField_of_error hcheck w), s.raise_completesRecoverable ..⟩

/-- A write whose field ends beyond the largest store completes with RESOURCE_EXHAUSTED (60_exceptions.md R165 step 5). -/
theorem write_completesExhausted (hfit : v.toNat < 2 ^ len.toNat)
    (hbig : s.config.maxBytes < ceilBytes (start + len.toNat)) (w : Word) :
    ∃ t, withLength s len 0 (writeField s v start len w) = .next t ∧ s.CompletesFatal t 0x10#8 0 :=
  ⟨_, (withLength_of_legal hs h1 hW 0 _).trans (writeField_of_error (writeCheck_of_exhausted hfit hbig) w),
    s.raise_completesFatal ..⟩

/-- A write that passes every check leaves the field in the store and the cursor it was given (42_write_path.md R123,
R124). -/
theorem write_completesOk (hfit : v.toNat < 2 ^ len.toNat) (hroom : ceilBytes (start + len.toNat) ≤ s.config.maxBytes)
    (w : Word) :
    ∃ t, withLength s len 0 (writeField s v start len w) = .next t ∧ s.CompletesOk t (some (len.zeroExtend 64)) 0 ∧
      t.wcur = w ∧ s.store.FieldWritten t.store v start len.toNat := by
  obtain ⟨m, e, hm, -⟩ := writeField_of_ok ((writeCheck_eq_none_iff ..).mpr ⟨hfit, hroom⟩) w
  exact ⟨_, (withLength_of_legal hs h1 hW 0 _).trans e,
    State.respond_completesOk (s := (s.withStore m).withWcur w) hs .., rfl, hm⟩

end

/-! ## Reading a written field -/

/-- A successful write leaves room for its field (40_backing_store.md R80). -/
theorem Memory.FieldWritten.within {m m' : Memory} {v : Word} {start len : Nat} (h : m.FieldWritten m' v start len) :
    start + len ≤ m'.capacityBits := by
  rw [Memory.capacityBits, ← ceilBytes_le_iff, h.grown]
  exact Nat.le_max_right ..

/-- A field after its write over zero bits unpacks to the value written (43_read_path.md R140). -/
theorem Memory.FieldWritten.unpack {m m' : Memory} {v : Word} {start len : Nat} (h : m.FieldWritten m' v start len)
    (hfit : v.toNat < 2 ^ len)
    (hzero : ∀ p, start ≤ p → p < start + len → p < m.capacityBits → m.bitAt p = some false) :
    m'.unpack start len = some v.toNat := by
  have hin := h.within
  refine Memory.unpack_eq_of_bits hin hfit fun i hi => ?_
  have hold : (m.bitAt (start + i)).getD false = false := by
    rcases Nat.lt_or_ge (start + i) m.capacityBits with hp | hp
    · rw [hzero _ (Nat.le_add_right ..) (by omega) hp, Option.getD_some]
    · rw [Memory.bitAt_of_ge hp, Option.getD_none]
  have hfield : fieldBit v start len (start + i) = v.toNat.testBit (len - 1 - i) := by
    simp [fieldBit, hi, BitVec.getLsbD]
  rw [h.bits _ (by omega), hold, hfield, Bool.false_or]

/-! ## The pack of a field cut in two, and of a field within one byte -/

/-- Packing a field is packing its first `a` bits and then the `b` bits behind them (42_write_path.md R120). -/
theorem Memory.pack_add (v : Word) (start a b : Nat) (m : Memory) :
    Memory.pack v start (a + b) m =
      (Memory.pack (v >>> b) start a m).bind (Memory.pack v (start + a) b) := by
  induction a generalizing start m with
  | zero => simp [Memory.pack]
  | succ a ih =>
    have hpos : start + 1 + a = start + (a + 1) := by omega
    rw [Nat.add_right_comm, Memory.pack, Memory.pack, Option.bind_assoc, BitVec.getLsbD_ushiftRight, Nat.add_comm b a]
    simp only [ih, hpos]

/-- The byte that brings the field of value bits `lo` to `lo + take - 1` to bit offset `pos`, where it ends in the byte it
begins in (42_write_path.md R121). -/
def fieldByte (v pos lo take : Nat) : Byte :=
  BitVec.ofNat 8 (extractBitsShifted v lo take <<< (bitsRemainingInByte pos - take))

theorem byteIndex_eq_of_within {pos take q : Nat} (htake : take ≤ bitsRemainingInByte pos) (h1 : pos ≤ q)
    (h2 : q < pos + take) : byteIndex q = byteIndex pos := by
  unfold bitsRemainingInByte bitOffsetInByte at htake
  unfold byteIndex
  omega

/-- The bits of the byte are those of the field. -/
theorem fieldByte_getLsbD (v : Word) {pos lo take q : Nat} (htake : take ≤ bitsRemainingInByte pos)
    (hq : byteIndex q = byteIndex pos) :
    (fieldByte v.toNat pos lo take).getLsbD (bitInByte q) = fieldBit (v >>> lo) pos take q := by
  rw [fieldByte, BitVec.getLsbD_ofNat, decide_eq_true (bitInByte_lt q), Bool.true_and, Nat.testBit_shiftLeft,
    extractBitsShifted, Nat.testBit_and, Nat.testBit_shiftRight, mask, Nat.testBit_two_pow_sub_one, fieldBit,
    BitVec.getLsbD_ushiftRight, BitVec.getLsbD]
  unfold bitsRemainingInByte bitOffsetInByte at *
  unfold byteIndex at hq
  unfold bitInByte bitOffsetInByte
  by_cases hend : q < pos + take
  · by_cases hbegin : pos ≤ q
    · have hbit : 7 - q % 8 - (8 - pos % 8 - take) = take - 1 - (q - pos) := by omega
      have hge : 8 - pos % 8 - take ≤ 7 - q % 8 := by omega
      have hlt : take - 1 - (q - pos) < take := by omega
      simp [hbegin, hend, hbit, hge, hlt]
    · have hge : ¬ 7 - q % 8 - (8 - pos % 8 - take) < take := by omega
      simp [hbegin, hge]
  · have hlow : ¬ 8 - pos % 8 - take ≤ 7 - q % 8 := by omega
    simp [hend, hlow]

/-- The bits of a canonical store after an OR into one byte. -/
theorem Memory.orByte_bitAt {m : Memory} {i : Nat} (hw : m.wf = true) (b : Byte) (h : i < m.len) :
    ∃ m', m.orByte i b = some m' ∧ m'.len = m.len ∧ m'.wf = true ∧
      ∀ q, m'.bitAt q = (m.bitAt q).map (· || (decide (byteIndex q = i) && b.getLsbD (bitInByte q))) := by
  obtain ⟨m', e, hlen, hother, hself, hw'⟩ := Memory.orByte_spec b h
  refine ⟨m', e, hlen, hw' hw, fun q => ?_⟩
  unfold Memory.bitAt
  by_cases hq : byteIndex q = i
  · rw [hq, hself (.inr hw), Memory.read_of_lt h]
    simp
  · rw [hother _ hq]
    simp only [hq, decide_false, Bool.false_and, Bool.or_false, Option.map_id']

/-- A canonical store is determined by its length and its bits. -/
theorem Memory.ext_of_bitAt {m n : Memory} (hm : m.wf = true) (hn : n.wf = true) (hl : m.len = n.len)
    (h : ∀ p, m.bitAt p = n.bitAt p) : m = n :=
  Memory.ext_of_read hm hn hl (Memory.read_ext_of_bitAt hl h)

/-- Packing a field that lies within one byte is one OR into that byte. -/
theorem Memory.orByte_fieldByte {m : Memory} (hw : m.wf = true) (v : Word) {pos take : Nat} (lo : Nat)
    (hpos : 1 ≤ take) (htake : take ≤ bitsRemainingInByte pos) (hin : pos + take ≤ m.capacityBits) :
    m.orByte (byteIndex pos) (fieldByte v.toNat pos lo take) = Memory.pack (v >>> lo) pos take m := by
  have hbyte : byteIndex pos < m.len := by
    unfold byteIndex
    unfold Memory.capacityBits at hin
    omega
  obtain ⟨m1, e1, hlen1, hw1, hbits1⟩ := Memory.orByte_bitAt hw (fieldByte v.toNat pos lo take) hbyte
  obtain ⟨m2, e2, hlen2, hbits2, -, hw2⟩ := Memory.pack_spec (v >>> lo) pos take m hin
  have hsame : ∀ q, (decide (byteIndex q = byteIndex pos) && (fieldByte v.toNat pos lo take).getLsbD (bitInByte q)) =
      fieldBit (v >>> lo) pos take q := by
    intro q
    by_cases hq : byteIndex q = byteIndex pos
    · rw [decide_eq_true hq, Bool.true_and, fieldByte_getLsbD v htake hq]
    · have hout : ¬ (pos ≤ q ∧ q < pos + take) := fun ⟨ha, hb⟩ => hq (byteIndex_eq_of_within htake ha hb)
      rw [decide_eq_false hq, Bool.false_and, fieldBit, ← Bool.decide_and, decide_eq_false hout, Bool.false_and]
  rw [e1, e2, Memory.ext_of_bitAt hw1 (hw2 hw) (hlen1.trans hlen2.symm) fun q => by rw [hbits1, hbits2, hsame]]

/-! ## The byte-at-a-time loop -/

section
variable (v fuel pos : Nat) {rem : Nat} (m : Memory)

theorem Memory.packBytewiseLoop_of_no_bits : Memory.packBytewiseLoop v fuel pos 0 m = some m := by
  cases fuel <;> simp [Memory.packBytewiseLoop]

/-- An iteration that does not reach the end of the field fills the byte at `pos`. -/
theorem Memory.packBytewiseLoop_of_beyond_byte (h : bitsRemainingInByte pos < rem) :
    Memory.packBytewiseLoop v (fuel + 1) pos rem m =
      (m.orByte (byteIndex pos) (fieldByte v pos (rem - bitsRemainingInByte pos) (bitsRemainingInByte pos))).bind
        (Memory.packBytewiseLoop v fuel (pos + bitsRemainingInByte pos) (rem - bitsRemainingInByte pos)) := by
  rw [Memory.packBytewiseLoop, if_neg (by omega), if_pos h, fieldByte, Nat.sub_self, Nat.shiftLeft_zero]

/-- The last iteration places what is left of the field. -/
theorem Memory.packBytewiseLoop_of_within_byte (hpos : 1 ≤ rem) (h : rem ≤ bitsRemainingInByte pos) :
    Memory.packBytewiseLoop v (fuel + 1) pos rem m = m.orByte (byteIndex pos) (fieldByte v pos 0 rem) := by
  rw [Memory.packBytewiseLoop, if_neg (by omega), if_neg (Nat.not_lt_of_le h), fieldByte]

end

/-- Every iteration packs the bits it places, so the loop packs what is left of the field. -/
theorem Memory.packBytewiseLoop_eq_pack (v : Word) {fuel pos rem : Nat} {m : Memory} (hfuel : rem ≤ fuel)
    (hw : m.wf = true) (hin : pos + rem ≤ m.capacityBits) :
    Memory.packBytewiseLoop v.toNat fuel pos rem m = Memory.pack v pos rem m := by
  induction fuel generalizing pos rem m with
  | zero =>
    cases Nat.le_zero.mp hfuel
    rfl
  | succ fuel ih =>
    have hroom : 1 ≤ bitsRemainingInByte pos := by unfold bitsRemainingInByte bitOffsetInByte; omega
    rcases Nat.eq_zero_or_pos rem with rfl | hrem
    · exact Memory.packBytewiseLoop_of_no_bits ..
    rcases Nat.lt_or_ge (bitsRemainingInByte pos) rem with hbeyond | hwithin
    · have hcut : rem = bitsRemainingInByte pos + (rem - bitsRemainingInByte pos) := by omega
      obtain ⟨m', e, hlen, -, -, hw'⟩ := Memory.pack_spec (v >>> (rem - bitsRemainingInByte pos)) pos
        (bitsRemainingInByte pos) m (by omega)
      have hrest := ih (pos := pos + bitsRemainingInByte pos) (rem := rem - bitsRemainingInByte pos) (m := m')
        (by omega) (hw' hw) (by unfold Memory.capacityBits at *; omega)
      calc Memory.packBytewiseLoop v.toNat (fuel + 1) pos rem m
          = Memory.packBytewiseLoop v.toNat fuel (pos + bitsRemainingInByte pos) (rem - bitsRemainingInByte pos) m' := by
            rw [Memory.packBytewiseLoop_of_beyond_byte _ _ _ _ hbeyond,
              Memory.orByte_fieldByte hw v _ hroom (Nat.le_refl _) (by omega), e, Option.bind_some]
        _ = Memory.pack v (pos + bitsRemainingInByte pos) (rem - bitsRemainingInByte pos) m' := hrest
        _ = Memory.pack v pos (bitsRemainingInByte pos + (rem - bitsRemainingInByte pos)) m := by
            rw [Memory.pack_add, e, Option.bind_some]
        _ = Memory.pack v pos rem m := by rw [← hcut]
    · rw [Memory.packBytewiseLoop_of_within_byte _ _ _ _ hrem hwithin,
        Memory.orByte_fieldByte hw v 0 hrem hwithin hin, BitVec.ushiftRight_zero]

/-! ## The statements -/

/-- Settles O23, check by check. -/
theorem insertFollowsItsRule : Obligations.InsertFollowsItsRule := by
  intro v start len s
  refine ⟨fun hs => exec_completesRefused hs _, fun hs hbad => ?_, fun hs h1 hW hwide => ?_,
    fun hs h1 hW hfit hbig => ?_, fun hs h1 hW hfit hroom => ?_⟩
  · exact withLength_completesFatal hs hbad ..
  · exact write_completesTooNarrow hs h1 hW hwide _
  · exact write_completesExhausted hs h1 hW hfit hbig _
  · exact write_completesOk hs h1 hW hfit hroom _

/-- Settles O24, check by check; the new cursor is exact as 64 bits since `MAX_BYTES` is legal. -/
theorem appendFollowsItsRule : Obligations.AppendFollowsItsRule := by
  intro v len s hlegal
  refine ⟨fun hs => exec_completesRefused hs _, fun hs hbad => ?_, fun hs h1 hW hwide => ?_,
    fun hs h1 hW hfit hbig => ?_, fun hs h1 hW hfit hroom => ?_⟩
  · exact withLength_completesFatal hs hbad ..
  · exact write_completesTooNarrow hs h1 hW hwide _
  · exact write_completesExhausted hs h1 hW hfit hbig _
  · obtain ⟨t, e, hok, hcursor, hfield⟩ := write_completesOk hs h1 hW hfit hroom _
    have hadm : s.Admits (.append v len) := ⟨⟨h1, hW⟩, hfit, hroom⟩
    have hsum : t.wcur.toNat = s.wcur.toNat + len.toNat := by rw [hcursor, hadm.append_cursor hlegal]
    exact ⟨t, e, hok, hsum, hsum ▸ hfield.grown, hfield⟩

/-- Settles O25: a one bit at or above `W` makes the value at least `2 ^ W`. -/
theorem valueWiderThanWNeverFits : Obligations.ValueWiderThanWNeverFits := by
  intro v start len s k hs h1 hW hk hbit
  have hwide : 2 ^ len.toNat ≤ v.toNat :=
    calc 2 ^ len.toNat ≤ 2 ^ k := Nat.pow_le_pow_right (by decide) (hW.trans hk)
      _ ≤ v.toNat := Nat.ge_two_pow_of_testBit hbit
  exact ⟨write_completesTooNarrow hs h1 hW hwide _, write_completesTooNarrow hs h1 hW hwide _⟩

/-- Settles O27: the loop with as much fuel as the field has bits. -/
theorem packBytewiseEqualsPack : Obligations.PackBytewiseEqualsPack := by
  intro m v start len hw hin
  exact Memory.packBytewiseLoop_eq_pack v (Nat.le_refl len) hw hin

/-- Settles O37: the store after the INSERT unpacks to the value, and GET answers what `unpack` answers. -/
theorem insertedFieldReadsBack : Obligations.InsertedFieldReadsBack := by
  intro v start len s t hzero h hq
  obtain ⟨hs, hfault, hfcode, hconf, ⟨⟨h1, hW⟩, hfit, -⟩, -, hfield, -⟩ := exec_succeeded h hq
  have ht : t.fault = false := hfault.trans hs
  have hget := exec_get_of_unpack ht h1 (hconf ▸ hW) hfield.within (hfield.unpack hfit hzero)
  obtain ⟨-, -, -, hrsp⟩ := State.respond_completesOk ht (some (BitVec.ofNat 64 v.toNat)) 0
  exact ⟨_, hget, by rw [hrsp, hfcode, BitVec.ofNat_toNat, BitVec.setWidth_eq]⟩

end Sys2Proof.Machine

/-! The statements about the read path (43_read_path.md): GET, GETC and SIZEBITS on every operand and state, the sum that
`unpack` is, the byte-at-a-time algorithm, a fresh store, and appended fields read back. First come the facts they share:
how a read completes, `unpack` of a field cut in two and of a field within one byte, and what a successful APPEND keeps. -/

namespace Sys2Proof.Machine

/-! ## How a read completes -/

section
variable {s : State} (hs : s.fault = false) {start : Nat} {len : LenField} (h1 : 1 ≤ len.toNat)
  (hW : len.toNat ≤ s.config.valueWidth.bits)
include hs h1 hW

/-- A read whose field ends beyond the store completes with OUT_OF_RANGE (60_exceptions.md R165 step 5). -/
theorem read_completesOutOfRange (hout : s.store.capacityBits < start + len.toNat) (ne ns : Word) :
    ∃ t, withLength s len ne (readField s start len ne ns) = .next t ∧ s.CompletesRecoverable t 0x02#8 ne :=
  ⟨_, (withLength_of_legal hs h1 hW ne _).trans (readField_of_out hout ne ns), s.raise_completesRecoverable ..⟩

/-- A read within the store answers the field's bits, most significant first (43_read_path.md R140, R142). -/
theorem read_completesOk (hin : start + len.toNat ≤ s.store.capacityBits) (ne ns : Word) :
    ∃ (t : State) (x : Word), withLength s len ne (readField s start len ne ns) = .next t ∧
      s.CompletesOk t (some x) ns ∧ s.sameS t ∧ x.toNat < 2 ^ len.toNat ∧
      ∀ k, k < len.toNat → s.store.bitAt (start + k) = some (x.getLsbD (len.toNat - 1 - k)) := by
  obtain ⟨n, hn, hlt, hbits⟩ := Memory.unpack_spec s.store start len.toNat hin
  obtain ⟨n', hn', -, e⟩ := readField_of_in hin ne ns
  cases hn.symm.trans hn'
  have hx : (BitVec.ofNat 64 n).toNat = n :=
    Nat.mod_eq_of_lt (hlt.trans_le (Nat.pow_le_pow_right (by decide) (hW.trans (valueWidth_bits_le _))))
  refine ⟨_, _, (withLength_of_legal hs h1 hW ne _).trans e, State.respond_completesOk hs .., ⟨rfl, rfl, rfl, rfl⟩,
    hx.symm ▸ hlt, fun k hk => ?_⟩
  rw [hbits k hk, BitVec.getLsbD, hx]

end

/-- The response of a GET within capacity carries the field. -/
theorem exec_get_answers {s : State} (hs : s.fault = false) {start : Word} {len : LenField} {x : Word}
    (h1 : 1 ≤ len.toNat) (hW : len.toNat ≤ s.config.valueWidth.bits)
    (hin : start.toNat + len.toNat ≤ s.store.capacityBits) (hx : s.store.unpack start.toNat len.toNat = some x.toNat) :
    ∃ u, exec (.get start len) s = .next u ∧ u.rsp = some (okResponse s.fcode (some x) 0) := by
  obtain ⟨-, -, -, hrsp⟩ := State.respond_completesOk hs (some (BitVec.ofNat 64 x.toNat)) 0
  exact ⟨_, exec_get_of_unpack hs h1 hW hin hx, by rw [hrsp, BitVec.ofNat_toNat, BitVec.setWidth_eq]⟩

/-! ## What unpack reads -/

section
variable (m : Memory)

/-- The bit at offset `start + i`, shifted to its place in a field of `len` bits (43_read_path.md R140). -/
def Memory.placedBit (start len i : Nat) : Nat := ((m.bitAt (start + i)).getD false).toNat <<< (len - 1 - i)

/-- Behind its first bit a field's bits are those of the field that is one shorter. -/
theorem Memory.placedBit_succ (start len i : Nat) :
    m.placedBit start (len + 1) (i + 1) = m.placedBit (start + 1) len i := by
  have hpos : start + (i + 1) = start + 1 + i := by omega
  have hplace : len + 1 - 1 - (i + 1) = len - 1 - i := by omega
  rw [Memory.placedBit, hpos, hplace, Memory.placedBit]

/-- Where the field lies within the store, `unpack` is the sum of its placed bits (43_read_path.md R140). -/
theorem Memory.unpack_eq_sum (start len : Nat) (h : start + len ≤ m.capacityBits) :
    m.unpack start len = some ((List.range len).map (m.placedBit start len)).sum := by
  induction len generalizing start with
  | zero => rfl
  | succ len ih =>
    have hs : (m.bitAt start).isSome = true := by
      rw [Memory.bitAt_isSome, decide_eq_true_eq]
      omega
    obtain ⟨b, hb⟩ := Option.isSome_iff_exists.mp hs
    have hfirst : m.placedBit start (len + 1) 0 = b.toNat <<< len := by simp [Memory.placedBit, hb]
    rw [Memory.unpack, hb, Option.bind_some, ih (start + 1) (by omega), List.range_succ_eq_map, List.map_cons,
      List.sum_cons, hfirst, List.map_map, Option.map_some]
    simp only [Function.comp_def, Nat.succ_eq_add_one, Memory.placedBit_succ]

/-- Unpacking a field is unpacking its first `a` bits and then the `b` bits behind them. -/
theorem Memory.unpack_add (start a b : Nat) :
    m.unpack start (a + b) =
      (m.unpack start a).bind (fun hi => (m.unpack (start + a) b).map (fun lo => hi <<< b + lo)) := by
  induction a generalizing start with
  | zero => simp [Memory.unpack]
  | succ a ih =>
    have hpos : start + 1 + a = start + (a + 1) := by omega
    rw [Nat.add_right_comm, Memory.unpack, Memory.unpack, ih, hpos, Option.bind_assoc]
    congr 1
    funext c
    cases m.unpack (start + 1) a <;> cases m.unpack (start + (a + 1)) b <;>
      simp [Nat.shiftLeft_eq, Nat.add_mul, Nat.pow_add, Nat.mul_assoc, Nat.add_assoc]

variable {m}

/-- `unpack` reads the bits of its field and no other. -/
theorem Memory.unpack_congr {n : Memory} {start len : Nat}
    (h : ∀ p, start ≤ p → p < start + len → m.bitAt p = n.bitAt p) : m.unpack start len = n.unpack start len := by
  induction len generalizing start with
  | zero => rfl
  | succ len ih =>
    rw [Memory.unpack, Memory.unpack, h start (Nat.le_refl _) (by omega), ih fun p hp hp' => h p (by omega) (by omega)]

theorem Memory.zeros_bitAt {n p : Nat} (hp : p < (Memory.zeros n).capacityBits) :
    (Memory.zeros n).bitAt p = some false := by
  rw [Memory.zeros_capacityBits] at hp
  rw [Memory.bitAt, Memory.zeros_read_of_lt (by unfold byteIndex; omega)]
  simp

/-- Every field of a store of zero bytes is 0 (43_read_path.md R145). -/
theorem Memory.zeros_unpack {n start len : Nat} (h : start + len ≤ (Memory.zeros n).capacityBits) :
    (Memory.zeros n).unpack start len = some 0 := by
  refine Memory.unpack_eq_of_bits h (Nat.two_pow_pos len) fun i hi => ?_
  rw [Memory.zeros_bitAt (by omega), Nat.zero_testBit]

/-! ## Unpacking a packed field -/

theorem Memory.ensureCapacity_of_within {bits : Nat} (h : bits ≤ m.capacityBits) : m.ensureCapacity bits = m :=
  if_neg (Nat.not_lt_of_le h)

/-- A pack within the store is a successful write that grows nothing. -/
theorem Memory.FieldWritten.of_pack {m' : Memory} {v : Word} {start len : Nat} (hin : start + len ≤ m.capacityBits)
    (h : Memory.pack v start len m = some m') : m.FieldWritten m' v start len := by
  obtain ⟨m'', e, hw, -⟩ := Memory.grow_pack_spec m v start len
  rw [Memory.ensureCapacity_of_within hin] at e
  cases h.symm.trans e
  exact hw

/-! ## The byte-at-a-time loop -/

/-- A field that ends in the byte it begins in is read out of that byte by one shift and one mask
(43_read_path.md R141). -/
theorem Memory.unpack_within_byte {pos take : Nat} {b : Byte} (hb : m.read (byteIndex pos) = some b)
    (htake : take ≤ bitsRemainingInByte pos) :
    m.unpack pos take = some (extractBitsShifted b.toNat (bitsRemainingInByte pos - take) take) := by
  have hlen := Memory.lt_of_read hb
  have hin : pos + take ≤ m.capacityBits := by
    unfold bitsRemainingInByte bitOffsetInByte at htake
    unfold byteIndex at hlen
    unfold Memory.capacityBits
    omega
  have hlt : extractBitsShifted b.toNat (bitsRemainingInByte pos - take) take < 2 ^ take :=
    Nat.and_lt_two_pow _ (Nat.sub_lt (Nat.two_pow_pos take) Nat.one_pos)
  refine Memory.unpack_eq_of_bits hin hlt fun i hi => ?_
  have hbyte : byteIndex (pos + i) = byteIndex pos :=
    byteIndex_eq_of_within htake (Nat.le_add_right ..) (by omega)
  have hbit : bitInByte (pos + i) = bitsRemainingInByte pos - take + (take - 1 - i) := by
    unfold bitsRemainingInByte bitOffsetInByte at *
    unfold bitInByte bitOffsetInByte
    omega
  have hmask : take - 1 - i < take := by omega
  rw [Memory.bitAt, hbyte, hb, Option.map_some, hbit, extractBitsShifted, Nat.testBit_and, Nat.testBit_shiftRight, mask,
    Nat.testBit_two_pow_sub_one, decide_eq_true hmask, Bool.and_true, BitVec.getLsbD]

/-- One iteration gathers what the byte at `pos` holds of the field. -/
theorem Memory.unpackBytewiseLoop_of_read {fuel acc pos rem take : Nat} {b : Byte} (hrem : 1 ≤ rem)
    (htake : take = min rem (bitsRemainingInByte pos)) (hb : m.read (byteIndex pos) = some b) :
    m.unpackBytewiseLoop (fuel + 1) acc pos rem =
      m.unpackBytewiseLoop fuel
        (acc ||| (extractBitsShifted b.toNat (bitsRemainingInByte pos - take) take <<< (rem - take)))
        (pos + take) (rem - take) := by
  rw [Memory.unpackBytewiseLoop, if_neg (by omega), hb, htake, Option.bind_some]

/-- Every iteration unpacks the bits it gathers, so the loop brings what is left of the field behind what it has. -/
theorem Memory.unpackBytewiseLoop_eq_unpack {fuel acc pos rem : Nat} (hfuel : rem ≤ fuel)
    (hin : pos + rem ≤ m.capacityBits) :
    m.unpackBytewiseLoop fuel acc pos rem = (m.unpack pos rem).map (acc ||| ·) := by
  induction fuel generalizing acc pos rem with
  | zero =>
    cases Nat.le_zero.mp hfuel
    simp [Memory.unpackBytewiseLoop, Memory.unpack]
  | succ fuel ih =>
    rcases Nat.eq_zero_or_pos rem with rfl | hrem
    · simp [Memory.unpackBytewiseLoop, Memory.unpack]
    obtain ⟨take, htake⟩ : ∃ take, take = min rem (bitsRemainingInByte pos) := ⟨_, rfl⟩
    have hroom : 1 ≤ bitsRemainingInByte pos := by unfold bitsRemainingInByte bitOffsetInByte; omega
    have hbyte : byteIndex pos < m.len := by unfold byteIndex; unfold Memory.capacityBits at hin; omega
    have hb := Memory.read_of_lt hbyte
    have hhi := Memory.unpack_within_byte hb (pos := pos) (take := take) (by omega)
    obtain ⟨lo, hlo, hlt, -⟩ := Memory.unpack_spec m (pos + take) (rem - take) (by omega)
    have hcut : rem = take + (rem - take) := by omega
    rw [Memory.unpackBytewiseLoop_of_read hrem htake hb, ih (by omega) (by omega), hcut, Memory.unpack_add, ← hcut, hhi,
      hlo]
    simp [Nat.or_assoc, Nat.shiftLeft_add_eq_or_of_lt hlt]

end

/-! ## Fields appended one after another -/

/-- What a successful APPEND leaves, from a state that meets the invariants (42_write_path.md R124). -/
structure State.Appended (s : State) (v : Word) (len : LenField) (u : State) : Prop where
  inv : u.Inv
  config : u.config = s.config
  fault : u.fault = s.fault
  fcode : u.fcode = s.fcode
  cursor : u.wcur.toNat = s.wcur.toNat + len.toNat
  fit : v.toNat < 2 ^ len.toNat
  field : s.store.FieldWritten u.store v s.wcur.toNat len.toNat

/-- Every bit at and above the cursor is zero (43_read_path.md R146). -/
def State.ZeroFromCursor (s : State) : Prop :=
  ∀ p, s.wcur.toNat ≤ p → p < s.store.capacityBits → s.store.bitAt p = some false

section
variable {s t u : State} {v : Word} {len : LenField} {fields : List (Word × LenField)}

theorem State.Appended.of_exec {q : Response} (hinv : s.Inv) (h : exec (.append v len) s = .next u)
    (hq : u.rsp = some q) (hc : q.code = 0x00#8) : s.Appended v len u := by
  have hx := (execRequest_of_command (decode_encode (.append v len)) s).trans h
  obtain ⟨q', hq', ⟨hconf, -⟩, hends, hadm⟩ := execRequest_ends hx
  cases hq.symm.trans hq'
  obtain ⟨hadm, -⟩ := hadm hc _ (decode_encode _)
  obtain ⟨-, hfit, -⟩ := id hadm
  cases hends with
  | unchanged _ hc' => exact absurd hc hc'
  | fatal _ _ _ _ _ hf => simp [hc, isFatalCode] at hf
  | ok i hd _ _ hfault hfcode he =>
    cases (decode_encode (.append v len)).symm.trans hd
    obtain ⟨hfield, hcursor⟩ := he
    exact ⟨hinv.of_execRequest hx, hconf, hfault, hfcode, by rw [hcursor, hadm.append_cursor hinv.configLegal], hfit,
      hfield⟩

/-- A list appended with success is its first field appended with success, then the others. -/
theorem appendAll_cons (hinv : s.Inv) (h : appendAll ((v, len) :: fields) s = some t) :
    ∃ u, s.Appended v len u ∧ appendAll fields u = some t := by
  obtain ⟨u, q, hu, hq, -⟩ := exec_completion (decode_encode (.append v len)) s
  rw [appendAll, hu] at h
  simp only [hq, Option.map_some, Option.some.injEq] at h
  split at h
  case isTrue hc => exact ⟨u, .of_exec hinv hu hq hc, h⟩
  case isFalse => cases h

theorem fieldBit_of_lt {start n p : Nat} (h : p < start) : fieldBit v start n p = false := by
  simp [fieldBit, Nat.not_le_of_lt h]

theorem fieldBit_of_ge {start n p : Nat} (h : start + n ≤ p) : fieldBit v start n p = false := by
  simp [fieldBit, Nat.not_lt_of_le h]

/-- An APPEND leaves every bit below the cursor as it was. -/
theorem State.Appended.bitAt_of_lt (h : s.Appended v len u) (hinv : s.Inv) {p : Nat} (hp : p < s.wcur.toNat) :
    u.store.bitAt p = s.store.bitAt p := by
  have hcap := hinv.cursorInCapacity
  have hlen := h.field.len_le
  have hsome : (s.store.bitAt p).isSome = true := by
    rw [Memory.bitAt_isSome, decide_eq_true_eq]
    omega
  obtain ⟨b, hb⟩ := Option.isSome_iff_exists.mp hsome
  rw [h.field.bits p (by unfold Memory.capacityBits at *; omega), fieldBit_of_lt hp, hb]
  simp

/-- Above the field an APPEND brings no one bit. -/
theorem State.Appended.zeroFromCursor (h : s.Appended v len u) (hzero : s.ZeroFromCursor) : u.ZeroFromCursor := by
  intro p hp hp'
  rw [h.cursor] at hp
  rw [h.field.bits p hp', fieldBit_of_ge hp]
  rcases Nat.lt_or_ge p s.store.capacityBits with hold | hnew
  · rw [hzero p (by omega) hold]
    rfl
  · rw [Memory.bitAt_of_ge hnew]
    rfl

/-- What a list of APPENDs keeps: the invariants, the latch and the parameters, and the bits below the cursor, which only
moves up. -/
theorem appendAll_keeps (hinv : s.Inv) (h : appendAll fields s = some t) :
    t.Inv ∧ t.config = s.config ∧ t.fault = s.fault ∧ t.fcode = s.fcode ∧ s.wcur.toNat ≤ t.wcur.toNat ∧
      ∀ p, p < s.wcur.toNat → t.store.bitAt p = s.store.bitAt p := by
  induction fields generalizing s with
  | nil =>
    cases h
    exact ⟨hinv, rfl, rfl, rfl, Nat.le_refl _, fun _ _ => rfl⟩
  | cons f fields ih =>
    obtain ⟨u, hu, hrest⟩ := appendAll_cons hinv h
    obtain ⟨htinv, hconf, hfault, hfcode, hcursor, hbits⟩ := ih hu.inv hrest
    have hup := hu.cursor
    refine ⟨htinv, hconf.trans hu.config, hfault.trans hu.fault, hfcode.trans hu.fcode, by omega, fun p hp => ?_⟩
    rw [hbits p (by omega), hu.bitAt_of_lt hinv hp]

theorem fieldOffset_zero (o : Nat) (fields : List (Word × LenField)) : fieldOffset o fields 0 = o := rfl

theorem fieldOffset_cons_succ (o : Nat) (f : Word × LenField) (fields : List (Word × LenField)) (j : Nat) :
    fieldOffset o (f :: fields) (j + 1) = fieldOffset (o + f.2.toNat) fields j := by
  simp [fieldOffset, Nat.add_assoc]

/-- Each appended field ends at or below the final cursor and unpacks to its value. -/
theorem appendAll_unpack (hinv : s.Inv) (hzero : s.ZeroFromCursor) (h : appendAll fields s = some t) {j : Nat}
    (hj : fields[j]? = some (v, len)) :
    fieldOffset s.wcur.toNat fields j + len.toNat ≤ t.wcur.toNat ∧
      t.store.unpack (fieldOffset s.wcur.toNat fields j) len.toNat = some v.toNat := by
  induction fields generalizing s j with
  | nil => simp at hj
  | cons f fields ih =>
    obtain ⟨u, hu, hrest⟩ := appendAll_cons hinv h
    cases j with
    | zero =>
      cases hj
      obtain ⟨-, -, -, -, hcursor, hbits⟩ := appendAll_keeps hu.inv hrest
      rw [hu.cursor] at hcursor hbits
      refine ⟨hcursor, ?_⟩
      rw [fieldOffset_zero, Memory.unpack_congr fun p _ hp => hbits p hp]
      exact hu.field.unpack hu.fit fun p hp _ => hzero p hp
    | succ j =>
      rw [fieldOffset_cons_succ, ← hu.cursor]
      exact ih hu.inv (hu.zeroFromCursor hzero) hrest hj

/-- The capacity in bits is exact as 64 bits (10_state.md R22). -/
theorem State.Inv.capacityBits_lt (h : s.Inv) : s.store.capacityBits < 2 ^ 64 := by
  have hlen := h.lenBounded
  have hmax := maxBytes_le_of_legal h.configLegal
  unfold Memory.capacityBits
  omega

end

/-! ## The statements -/

/-- Settles O29, check by check. -/
theorem getFollowsItsRule : Obligations.GetFollowsItsRule := by
  intro start len s
  refine ⟨fun hs => exec_completesRefused hs _, fun hs hbad => ?_, fun hs h1 hW hout => ?_, fun hs h1 hW hin => ?_⟩
  · exact withLength_completesFatal hs hbad ..
  · exact read_completesOutOfRange hs h1 hW hout ..
  · exact read_completesOk hs h1 hW hin ..

/-- Settles O30, check by check; the advanced cursor is exact as 64 bits since it lies within the store. -/
theorem getcFollowsItsRule : Obligations.GetcFollowsItsRule := by
  intro c len s hinv
  refine ⟨fun hs => exec_completesRefused hs _, fun hs hbad => ?_, fun hs h1 hW hout => ?_, fun hs h1 hW hin => ?_⟩
  · exact withLength_completesFatal hs hbad ..
  · exact read_completesOutOfRange hs h1 hW hout ..
  · obtain ⟨t, x, e, hok, hS, hlt, hbits⟩ := read_completesOk hs h1 hW hin c (Instr.nextOnSuccess (.getc c len))
    have hadm : s.Admits (.getc c len) := ⟨⟨h1, hW⟩, hin⟩
    exact ⟨t, x, _, e, hok, hS, hadm.getc_cursor hinv, hlt, hbits⟩

/-- Settles O32: `unpack` is the sum of its bits, and a pack within the store is a write whose field unpacks. -/
theorem unpackIsTheSumAndInvertsPack : Obligations.UnpackIsTheSumAndInvertsPack := by
  intro m start len hin
  constructor
  · obtain ⟨n, hn, hlt, -⟩ := Memory.unpack_spec m start len hin
    exact ⟨n, hn, hlt, Option.some.inj (hn.symm.trans (m.unpack_eq_sum start len hin))⟩
  · intro v m' hfit hzero hpack
    refine (Memory.FieldWritten.of_pack hin hpack).unpack hfit fun p hp hp' _ => ?_
    obtain ⟨i, rfl⟩ := Nat.exists_eq_add_of_le hp
    exact hzero i (by omega)

/-- Settles O33: the loop from nothing gathered, with as much fuel as the field has bits. -/
theorem unpackBytewiseEqualsUnpack : Obligations.UnpackBytewiseEqualsUnpack := by
  intro m start len hin
  simp [Memory.unpackBytewise, Memory.unpackBytewiseLoop_eq_unpack (Nat.le_refl len) hin]

/-- Settles O36: NEW leaves a store of zero bytes, every field of which is 0. -/
theorem freshStoreReadsZero : Obligations.FreshStoreReadsZero := by
  intro size start len s t h hq h1 hW hin
  obtain ⟨hs, hfault, hfcode, hconf, -, -, hstore, -⟩ := exec_succeeded h hq
  rw [← hfcode]
  refine exec_get_answers (hfault.trans hs) h1 (hconf ▸ hW) hin ?_
  rw [hstore] at hin ⊢
  exact Memory.zeros_unpack hin

/-- Settles O38: each appended field unpacks to its value, and GET answers what `unpack` answers. -/
theorem appendedFieldsReadBack : Obligations.AppendedFieldsReadBack := by
  intro fields s t j v len hinv hs hzero hlegal h hj
  obtain ⟨htinv, hconf, hfault, hfcode, -⟩ := appendAll_keeps hinv h
  obtain ⟨hend, hunpack⟩ := appendAll_unpack hinv hzero h hj
  obtain ⟨h1, hW, -⟩ := hlegal _ (List.mem_of_getElem? hj)
  have hin := hend.trans htinv.cursorInCapacity
  have hstart : (BitVec.ofNat 64 (fieldOffset s.wcur.toNat fields j)).toNat = fieldOffset s.wcur.toNat fields j :=
    Nat.mod_eq_of_lt (by have := htinv.capacityBits_lt; omega)
  rw [← hfcode]
  exact exec_get_answers (hfault.trans hs) h1 (hconf ▸ hW) (hstart.symm ▸ hin) (hstart.symm ▸ hunpack)

/-- Settles O31, branch by branch. -/
theorem sizebitsFollowsItsRule : Obligations.SizebitsFollowsItsRule := by
  intro s
  refine ⟨fun hs => exec_completesRefused hs _, fun hs => ?_⟩
  exact ⟨_, unlessFaulted_of_clear hs 0 _, State.respond_completesOk hs .., rfl, rfl, rfl, rfl⟩

end Sys2Proof.Machine

/-! The statements about errors and the fault latch (60_exceptions.md): one response to each accepted request, what a
recoverable and a fatal error do, the faulted block, and the order in which conditions are reported. First come facts they
share: the response to an accepted request, and how a request ends with each code. -/

namespace Sys2Proof.Machine

/-! ## The response to an accepted request -/

theorem Response.isStatusCode_of_proper {q : Response} (h : q.proper = true) : isStatusCode q.code = true := by
  simp only [Response.proper, Bool.and_eq_true] at h
  obtain ⟨⟨⟨⟨hcode, -⟩, -⟩, -⟩, -⟩ := h
  exact hcode

/-- Every request, its word legal or not, is answered with a proper response (60_exceptions.md R160, R161). -/
theorem execRequest_respondsWith (r : Request) (s : State) : ∃ ne ns, RespondsWith ne ns (execRequest r s) := by
  cases hd : decode r with
  | command i => exact ⟨_, _, execRequest_of_command hd s ▸ exec_respondsWith i s⟩
  | illegal why => exact ⟨_, _, execRequest_of_illegal hd s ▸ takeIllegal_respondsWith s⟩

/-- Everything a step that accepts a request does beside `S`: it answers one proper response, which the host takes or
leaves, and uses up the host's action. -/
theorem step_answersProperly {s : State} {r : Request} {takes : Bool} {rest : List HostEvent} (hready : s.reqReady = true)
    (hh : s.host = .request r takes :: rest) :
    ∃ t q, step s = .next (if takes then t.deliver else t) ∧ t.rsp = some q ∧ q.proper = true ∧
      (s.withHost rest).sameSurroundings t := by
  obtain ⟨ne, ns, t, q, h, hq, hproper, -⟩ := execRequest_respondsWith r (s.withHost rest)
  obtain ⟨-, -, hsur, -⟩ := execRequest_ends h
  exact ⟨t, q, (step_of_request hready hh).trans (transact_of_next h takes), hq, hproper, hsur⟩

/-! ## How a request ends with each code -/

/-- The result reports the code: FAULTED by the refusal of a faulted block, an error's code by raising that error, and OK by
a success. `ne` is the NEXT field of an error. -/
inductive Reports (s : State) (ne : Word) : BitVec 8 → Result → Prop where
  | refused (hs : s.fault = true) : Reports s ne 0x1F#8 (.next (s.refuseFaulted ne))
  | raised (hs : s.fault = false) (e : CommandError) : Reports s ne e.bits (.next (s.raise e ne))
  | ok (hs : s.fault = false) (u : State) (res : Option Word) (ns : Word) :
    Reports s ne 0x00#8 (.next (u.respond .ok res ns))

section
variable {s t : State} {ne : Word} {c : BitVec 8} {q : Response}

theorem Reports.responds {x : Result} (h : Reports s ne c x) : ∃ t q, x = .next t ∧ t.rsp = some q ∧ q.code = c := by
  cases h with
  | refused hs => exact ⟨_, _, rfl, rfl, statusWord_code ..⟩
  | raised hs e => cases e <;> exact ⟨_, _, rfl, rfl, statusWord_code ..⟩
  | ok hs u res ns => exact ⟨_, _, rfl, rfl, statusWord_code ..⟩

theorem Reports.code_eq (h : Reports s ne c (.next t)) (hq : t.rsp = some q) : q.code = c := by
  obtain ⟨t', q', ht, hq', hcode⟩ := h.responds
  cases ht
  cases hq.symm.trans hq'
  exact hcode

theorem Reports.completesRecoverable (h : Reports s ne c (.next t)) (hc : c = 0x01#8 ∨ c = 0x02#8 ∨ c = 0x03#8) :
    s.CompletesRecoverable t c ne := by
  cases h with
  | refused | ok => simp at hc
  | raised hs e =>
    cases e with
    | recoverable e => exact s.raise_completesRecoverable e ne
    | fatal e => exact absurd hc (by cases e <;> decide)

theorem Reports.completesFatal (h : Reports s ne c (.next t)) (hc : isFatalCode c = true) :
    s.fault = false ∧ s.CompletesFatal t c ne := by
  cases h with
  | refused | ok => simp [isFatalCode] at hc
  | raised hs e =>
    cases e with
    | recoverable e => exact absurd hc (by cases e <;> decide)
    | fatal e => exact ⟨hs, s.raise_completesFatal e ne⟩

end

/-! ## The first condition is the one reported -/

section
variable {s : State} (hs : s.fault = false)
include hs

theorem Reports.fieldGuarded {ne : Word} {c : BitVec 8} {len : LenField} {run : Result}
    (hl : 1 ≤ len.toNat ∧ len.toNat ≤ s.config.valueWidth.bits) (h : Reports s ne c run) :
    Reports s ne c (withLength s len ne run) := by
  obtain ⟨h1, hW⟩ := hl
  rwa [withLength_of_legal hs h1 hW]

theorem Reports.write (value : Word) (start : Nat) (len : LenField) (w : Word) :
    Reports s 0 (if 2 ^ len.toNat ≤ value.toNat then 0x01#8
      else if s.config.maxBytes < ceilBytes (start + len.toNat) then 0x10#8 else 0x00#8)
      (writeField s value start len w) := by
  split_ifs with hwide hbig
  · exact writeField_of_error (if_pos ((fits_eq_false_iff ..).mpr hwide)) w ▸ .raised hs (.recoverable .fieldTooNarrow)
  · exact writeField_of_error (writeCheck_of_exhausted (Nat.lt_of_not_le hwide) hbig) w ▸
      .raised hs (.fatal .resourceExhausted)
  · obtain ⟨m, e, -⟩ := writeField_of_ok
      ((writeCheck_eq_none_iff ..).mpr ⟨Nat.lt_of_not_le hwide, Nat.le_of_not_lt hbig⟩) w
    exact e ▸ .ok hs ..

theorem Reports.read (start : Nat) (len : LenField) (ne ns : Word) :
    Reports s ne (if 8 * s.store.len < start + len.toNat then 0x02#8 else 0x00#8) (readField s start len ne ns) := by
  split_ifs with hout
  · exact readField_of_out hout ne ns ▸ .raised hs (.recoverable .outOfRange)
  · obtain ⟨n, -, -, e⟩ := readField_of_in (Nat.le_of_not_lt hout) ne ns
    exact e ▸ .ok hs ..

variable {r : Request} {o : Opcode}

theorem firstCondition_of_no_row (h : decodeOpcode r.cmd = none) : firstCondition r s = 0x11#8 := by
  simp [firstCondition, hs, h]

theorem firstCondition_of_badLength (hm : o.matches r.cmd = true) (hf : isField o = true)
    (hl : (cmdLen r.cmd).toNat = 0 ∨ s.config.valueWidth.bits < (cmdLen r.cmd).toNat) :
    firstCondition r s = 0x12#8 := by
  simp [firstCondition, hs, decodeOpcode_eq_some_iff.mpr hm, hf, hl]

/-- Past the length check come the fit check of a write and the command's range condition. -/
theorem firstCondition_of_legalLength (hm : o.matches r.cmd = true)
    (hl : isField o = true → 1 ≤ (cmdLen r.cmd).toNat ∧ (cmdLen r.cmd).toNat ≤ s.config.valueWidth.bits) :
    firstCondition r s =
      if (o = .insert ∨ o = .append) ∧ 2 ^ (cmdLen r.cmd).toNat ≤ r.opa.toNat then 0x01#8 else rangeCondition o r s := by
  have hgood : ¬ (isField o = true ∧
      ((cmdLen r.cmd).toNat = 0 ∨ s.config.valueWidth.bits < (cmdLen r.cmd).toNat)) := by
    rintro ⟨hf, hbad⟩
    have := hl hf
    omega
  simp only [firstCondition, hs, decodeOpcode_eq_some_iff.mpr hm, if_neg hgood, Bool.false_eq_true, if_false]

/-- Past the length check a command reports the first of its own conditions, each in the branch that raises it. -/
theorem exec_reports (hm : o.matches r.cmd = true)
    (hl : isField o = true → 1 ≤ (cmdLen r.cmd).toNat ∧ (cmdLen r.cmd).toNat ≤ s.config.valueWidth.bits) :
    Reports s (o.command r).nextOnError (firstCondition r s) (exec (o.command r) s) := by
  rw [firstCondition_of_legalLength hs hm hl]
  cases o with
  | new =>
    rw [if_neg (by simp), rangeCondition]
    split_ifs with hbig
    · exact exec_new_of_exhausted hs hbig ▸ .raised hs (.fatal .resourceExhausted)
    · exact exec_new_of_room hs (Nat.le_of_not_lt hbig) ▸ .ok hs ..
  | resize =>
    rw [if_neg (by simp), rangeCondition]
    split_ifs with hbelow hbig
    · exact exec_resize_of_below_cursor hs hbelow ▸ .raised hs (.recoverable .bufferTooSmall)
    · exact exec_resize_of_exhausted hs (Nat.le_of_not_lt hbelow) hbig ▸ .raised hs (.fatal .resourceExhausted)
    · exact exec_resize_of_room hs (Nat.le_of_not_lt hbelow) (Nat.le_of_not_lt hbig) ▸ .ok hs ..
  | rawbyte =>
    rw [if_neg (by simp), rangeCondition]
    split_ifs with hpast
    · exact exec_rawbyte_of_past_end hs hpast ▸ .raised hs (.fatal .rawIndexRange)
    · exact exec_rawbyte_of_read hs (Memory.read_of_lt (Nat.lt_of_not_le hpast)) ▸ .ok hs ..
  | capbytes => exact exec_capbytes_of_clear hs ▸ .ok hs ..
  | sizebits =>
    have hx : exec .sizebits s = .next (s.respond .ok (some s.wcur) 0) := unlessFaulted_of_clear hs 0 _
    exact hx ▸ .ok hs ..
  | insert =>
    refine .fieldGuarded hs (hl rfl) ?_
    simpa [rangeCondition, Opcode.command, Instr.nextOnError] using Reports.write hs r.opa r.opb.toNat (cmdLen r.cmd) _
  | append =>
    refine .fieldGuarded hs (hl rfl) ?_
    simpa [rangeCondition, Opcode.command, Instr.nextOnError] using Reports.write hs r.opa s.wcur.toNat (cmdLen r.cmd) _
  | get =>
    rw [if_neg (by simp)]
    exact .fieldGuarded hs (hl rfl) (.read hs ..)
  | getc =>
    rw [if_neg (by simp)]
    exact .fieldGuarded hs (hl rfl) (.read hs ..)

end

theorem errorNext_of_no_row {r : Request} (h : decodeOpcode r.cmd = none) : errorNext r = 0 := by
  simp [errorNext, h]

theorem decode_of_no_row {r : Request} (h : decodeOpcode r.cmd = none) : decode r = .illegal (illegalReason r.cmd) := by
  rw [decode, h]

/-- A faulted block refuses every request, its word legal or not (60_exceptions.md R164). -/
theorem execRequest_of_fault {s : State} (hs : s.fault = true) (r : Request) :
    execRequest r s = .next (s.refuseFaulted (errorNext r)) := by
  cases ho : decodeOpcode r.cmd with
  | none => rw [execRequest_of_illegal (decode_of_no_row ho), State.takeIllegal_of_fault hs, errorNext_of_no_row ho]
  | some o =>
    have hm := decodeOpcode_eq_some_iff.mp ho
    rw [execRequest_of_command (decode_of_matches hm), exec_of_fault hs, errorNext_of_matches hm]

theorem firstCondition_of_fault {s : State} (hs : s.fault = true) (r : Request) : firstCondition r s = 0x1F#8 :=
  if_pos hs

/-- A request reports the first condition that applies to it (60_exceptions.md R165). -/
theorem execRequest_reports (r : Request) (s : State) :
    Reports s (errorNext r) (firstCondition r s) (execRequest r s) := by
  cases hs : s.fault with
  | true =>
    rw [execRequest_of_fault hs, firstCondition_of_fault hs]
    exact .refused hs
  | false =>
    cases ho : decodeOpcode r.cmd with
    | none =>
      rw [execRequest_of_illegal (decode_of_no_row ho), State.takeIllegal_of_clear hs, errorNext_of_no_row ho,
        firstCondition_of_no_row hs ho]
      exact .raised hs (.fatal .illegalCommand)
    | some o =>
      have hm := decodeOpcode_eq_some_iff.mp ho
      rw [execRequest_of_command (decode_of_matches hm)]
      by_cases hbad : isField o = true ∧
          ((cmdLen r.cmd).toNat = 0 ∨ s.config.valueWidth.bits < (cmdLen r.cmd).toNat)
      · obtain ⟨hf, hl⟩ := hbad
        rw [exec_of_badLength hs hm hf hl, firstCondition_of_badLength hs hm hf hl]
        exact .raised hs (.fatal .badLength)
      · rw [errorNext_of_matches hm]
        refine exec_reports hs hm fun hf => ?_
        have hlegal := not_and.mp hbad hf
        omega

theorem execRequest_reports_code {r : Request} {s t : State} {q : Response} (h : execRequest r s = .next t)
    (hq : t.rsp = some q) : Reports s (errorNext r) q.code (.next t) := by
  have hr := h ▸ execRequest_reports r s
  exact hr.code_eq hq ▸ hr

/-! ## The statements -/

/-- Settles O12: the step answers one proper response, which is delivered or left on the channel. -/
theorem acceptedRequestGetsOneResponse : Obligations.AcceptedRequestGetsOneResponse := by
  intro s r rest hready
  constructor
  · intro hh
    obtain ⟨t, q, h, hq, hproper, -, -, hhost, hresp⟩ := step_answersProperly hready hh
    exact ⟨t.deliver, q, h, by simp [hq, hresp], Response.isStatusCode_of_proper hproper, by simp,
      by simp [State.requestIndex, hq, hresp], by simp [hhost]⟩
  · intro hh
    obtain ⟨t, q, h, hq, hproper, -, -, hhost, hresp⟩ := step_answersProperly hready hh
    exact ⟨t, q, h, hresp, Response.isStatusCode_of_proper hproper, hq, congrArg List.length hresp, hhost⟩

/-- Settles O39: a request that reports a recoverable code raised that error. -/
theorem recoverableErrorsChangeNothing : Obligations.RecoverableErrorsChangeNothing := by
  intro r s t q h hq hc
  exact (execRequest_reports_code h hq).completesRecoverable hc

/-- Settles O40: a request that reports a fatal code raised that error, which a faulted block does not. -/
theorem fatalErrorsLatchTheirCode : Obligations.FatalErrorsLatchTheirCode := by
  intro r s t q h hq hc
  exact (execRequest_reports_code h hq).completesFatal hc

/-- Settles O41: the refusal comes before all else a request can do, and who clears the latch is what O42 says. -/
theorem faultedBlockRefusesUntilReset : Obligations.FaultedBlockRefusesUntilReset := by
  obtain ⟨-, -, hcleared, -⟩ := onlyFatalErrorsSetTheLatch
  exact ⟨fun r s hs => ⟨_, execRequest_of_fault hs r, s.refuseFaulted_completesRefused hs _⟩,
    fun s t hs h ht => hcleared s t h hs ht⟩

/-- Settles O45; RESIZE's two conditions exclude each other since the cursor lies within the store. -/
theorem firstConditionIsReported : Obligations.FirstConditionIsReported :=
  ⟨fun r s => (execRequest_reports r s).responds, fun n _ hinv => hinv.resize_conditions_exclusive n.toNat⟩

/-- Settles O15, by the equation of a step without an action of the host. -/
theorem idleBlockKeepsItsState : Obligations.IdleBlockKeepsItsState :=
  fun _ => step_of_idle

end Sys2Proof.Machine

/-! The statements about reset and hazards (70_reset_and_hazards.md): what a reset does to the block, the responses to a
program of requests, and the bytes a field touches. First come facts they use: the equations of a step under reset, the
response to the first request of a program, and how many bytes a field touches by where in its first byte it starts. -/

namespace Sys2Proof.Machine

/-! ## A step under reset -/

section
variable {s : State} {rest : List HostEvent}

/-- An edge with `rst = 1` sets `S` and empties the channel, whatever the host does next. -/
theorem portUnderReset_resetsS (s : State) :
    (State.resetWith s.config).sameS (portUnderReset s) ∧ (portUnderReset s).rsp = none := by
  unfold portUnderReset
  split <;> exact ⟨⟨rfl, rfl, rfl, rfl⟩, rfl⟩

theorem portUnderReset_of_driveReset {level : Bool} (hh : s.host = .driveReset level :: rest) :
    portUnderReset s = (s.applyReset.withHost rest).withRst level := by
  rw [portUnderReset, hh]

/-- A request waits while `rst` is 1. -/
theorem portUnderReset_of_request {r : Request} {takes : Bool} (hh : s.host = .request r takes :: rest) :
    portUnderReset s = s.applyReset := by
  rw [portUnderReset, hh]

theorem portUnderReset_rst (hr : s.rst = true) (hn : ¬ ∃ rest, s.host = .driveReset false :: rest) :
    (portUnderReset s).rst = true := by
  unfold portUnderReset
  split
  case h_1 level rest hh =>
    cases level with
    | true => rfl
    | false => exact absurd ⟨rest, hh⟩ hn
  all_goals exact hr

/-- Driving `rst` to 1 has one effect, whether or not the block is under reset already. -/
theorem step_of_driveReset_true (hh : s.host = .driveReset true :: rest) :
    step s = .next ((s.applyReset.withHost rest).withRst true) := by
  cases hr : s.rst with
  | true => rw [step_of_rst hr, portUnderReset_of_driveReset hh]
  | false => exact step_of_driveReset hr hh

theorem State.reqReady_of_rst (hr : s.rst = true) : s.reqReady = false := by
  simp [State.reqReady, hr]

theorem State.rspValid_of_rst (hr : s.rst = true) : s.rspValid = false := by
  simp [State.rspValid, hr]

theorem State.reqReady_of_idle (hr : s.rst = false) (hq : s.rsp = none) : s.reqReady = true := by
  simp [State.reqReady, hr, hq]

end

/-! ## The run of a program -/

theorem run_succ_of_step {M : Host.Core} {s t : M.State} (h : M.step s = .next t) (k : Nat) :
    M.run (k + 1) s = M.run k t := by
  rw [Host.Core.run, h]

/-- The first request of a program is accepted and its response delivered, and the rest of the program is next. -/
theorem step_of_program {s : State} {r : Request} {rs : List Request} (hready : s.reqReady = true)
    (hh : s.host = programEvents (r :: rs)) :
    ∃ t q, step s = .next t ∧ t.responses = s.responses ++ [q] ∧ q.proper = true ∧ t.host = programEvents rs ∧
      t.reqReady = true := by
  obtain ⟨t, q, h, hq, hproper, -, hrst, hhost, hresp⟩ := step_answersProperly (rest := programEvents rs) hready hh
  have hr : t.deliver.rst = false := by simp [hrst, State.rst_of_reqReady hready]
  exact ⟨t.deliver, q, h, by simp [hq, hresp], hproper, by simp [hhost], State.reqReady_of_idle hr t.deliver_rsp⟩

/-! ## The bytes a field touches -/

/-- Of the start only its offset in its byte counts: the field's last bit lies that many bits and `len - 1` more beyond
the first bit of the first byte. -/
theorem bytesTouched_eq (start : Nat) {len : Nat} (h : 1 ≤ len) :
    bytesTouched start len = (bitOffsetInByte start + len - 1) / 8 + 1 := by
  unfold bytesTouched byteIndex bitOffsetInByte
  omega

/-! ## The statements -/

/-- Settles O16, by the equations of a step under reset; that nothing else clears the latch is O42's. -/
theorem resetClearsTheBlock : Obligations.ResetClearsTheBlock := by
  obtain ⟨-, -, hcleared, -⟩ := onlyFatalErrorsSetTheLatch
  refine ⟨fun s rest hh => ?_, fun s hr => ?_, fun s t hs h ht => hcleared s t h hs ht⟩
  · exact ⟨_, step_of_driveReset_true hh, ⟨rfl, rfl, rfl, rfl⟩, rfl, ⟨s.responses, rfl⟩, rfl, rfl, rfl,
      State.reqReady_of_rst rfl, State.rspValid_of_rst rfl⟩
  · obtain ⟨hS, hrsp⟩ := portUnderReset_resetsS s
    refine ⟨State.reqReady_of_rst hr, State.rspValid_of_rst hr, _, step_of_rst hr, hS, hrsp, ?_,
      portUnderReset_rst hr, ?_⟩
    · rintro ⟨rest, hh⟩
      rw [portUnderReset_of_driveReset hh]
      exact ⟨rfl, State.reqReady_of_idle rfl rfl⟩
    · intro r takes rest hh
      rw [portUnderReset_of_request hh, State.applyReset_host]

/-- Settles O17, by induction on the requests: each step answers the first one and leaves the program of the others. -/
theorem programOfKRequestsGetsKResponses : Obligations.ProgramOfKRequestsGetsKResponses := by
  intro rs
  induction rs with
  | nil => exact fun s hready hh => ⟨s, [], rfl, by simp, rfl, by simp, hh, hready⟩
  | cons r rs ih =>
    intro s hready hh
    obtain ⟨u, q, hstep, hresp, hproper, hhost, hu⟩ := step_of_program hready hh
    obtain ⟨t, qs, hrun, hresps, hlen, hall, hend, ht⟩ := ih u hu hhost
    exact ⟨t, q :: qs, (run_succ_of_step (M := core) hstep rs.length).trans hrun, by simp [hresps, hresp], by simp [hlen],
      List.forall_mem_cons.mpr ⟨hproper, hall⟩, hend, ht⟩

/-- Settles O51: a start is at most 7 bits into its byte, and offset 7 needs the most bytes. -/
theorem fieldTouchesBoundedBytes : Obligations.FieldTouchesBoundedBytes := by
  intro len h
  refine ⟨fun start => ?_, 7, ?_⟩
  · rw [bytesTouched_eq start h]
    have hoff : bitOffsetInByte start < 8 := Nat.mod_lt start (by decide)
    omega
  · have hoff : bitOffsetInByte 7 = 7 := rfl
    rw [bytesTouched_eq 7 h, hoff]
    omega

end Sys2Proof.Machine
